-- ==== Sys2Proof/Word.lean ====
section
/-! DEFINITION. The data types of the block: words, bytes, the four-word window, the closed sets of
names the spec gives (error codes, commands, opcodes, agents), and what a host can present at its
port. Arithmetic, byte orders and field access are in Machine/Operands.lean. -/

namespace Sys2Proof

/-- A state word, a key word or a register: an unsigned 32-bit value (00_scope.md R12). -/
abbrev Word := BitVec 32

/-- One byte of a 16-byte quantity (00_scope.md R14). -/
abbrev Byte := BitVec 8

/-- A 16-byte quantity as the byte array `B[0..15]` (00_scope.md R12); `B 0` is the first byte.
It is an argument or a result of functions only: State holds windows as words. -/
abbrev Bytes16 := Fin 16 → Byte

/-- Four 32-bit words: a register window `X[0..3]` (10_state.md R21) or the permutation state
`V[0..3]` (R34). -/
structure Quad where
  w0 : Word
  w1 : Word
  w2 : Word
  w3 : Word
deriving DecidableEq, Repr, Inhabited

/-- The values STATUS.ERR takes (10_state.md R30, 60_exceptions.md R191). Codes 6 to 15 are
"never produced", so there is no constructor for them. -/
inductive ErrCode where
  | none
  | illegalCommand
  | invalidLength
  | missingKey
  | missingCounterState
  | busy
deriving DecidableEq, Repr

/-- A legal command, the `Cmd` of `decode_cmd` (30_encoding.md R77). `ctrXor n` carries LEN. -/
inductive Command where
  | permFwd
  | permInv
  | ctrXor (n : BitVec 5)
deriving DecidableEq, Repr

/-- The latched opcode OPL (10_state.md R36). -/
inductive Opcode where
  | permFwd
  | permInv
  | ctrXor
deriving DecidableEq, Repr, Inhabited

/-- The direction argument of PERMUTE (41_permutation.md R132). -/
inductive Direction where
  | forward
  | inverse
deriving DecidableEq, Repr

/-- The two agents of the block (10_state.md R20). -/
inductive Agent where
  | host
  | core
deriving DecidableEq, Repr

/-- A request on the host bus (30_encoding.md R71): a byte offset from the window's base, the width
of the transfer in bits, and the write data, absent for a read (so WE is `wdata.isSome`). Offset
and width are plain numbers, so that the requests that are no transaction of the block (R108,
93_implementation_defined.md U13) can be written down and refused. -/
structure BusRequest where
  off : Nat
  width : Nat
  wdata : Option Word
deriving DecidableEq, Repr

/-- What the block decodes, in its two formats (30_encoding.md R70): a bus request, or a command
word presented to CMD (the pseudo-instruction form of R81, whose bus form is a write of that word
to offset 0x00; notes/assumptions/6.md). -/
inductive Request where
  | bus (r : BusRequest)
  | cmd (w : Word)
deriving DecidableEq, Repr

/-- Why the decoder takes a request for no transaction of this block (R57, R58, R108). -/
inductive DecodeError where
  | outOfWindow
  | notWordAccess
deriving DecidableEq, Repr

/-- What the host does at one of its turns (40_host_interface.md R90, 30_encoding.md R80, R81):
present a request, drive the reset line, or poll STATUS until BUSY reads 0. -/
inductive HostOp where
  | request (r : Request)
  | reset
  | wait
deriving DecidableEq, Repr

end Sys2Proof
end

