-- ==== Sys2Proof/Config.lean ====
section
/-! DEFINITION. The parameters of the block: those the source fixes (00_scope.md R9), those the
spec sets (R10), the two it leaves open, and the values it leaves unspecified; what is open or
unspecified is a constant without a body. -/

namespace Sys2Proof.Config

/-- ROUNDS, the number of rounds of one permutation (00_scope.md R9). -/
def rounds : Nat := 16

/-- BLOCK_BYTES, the bytes of one block and of the key (00_scope.md R9). -/
def blockBytes : Nat := 16

/-- The core steps of one command: 16 round steps and one commit step (00_scope.md R10,
70_reset_and_hazards.md R233). -/
def coreSteps : Nat := rounds + 1

/-- The last byte offset of the register window (20_memory.md R51). -/
def lastOffset : Nat := 0xFF

/-- BUS_BITS, the width of every bus transfer (00_scope.md R10, 20_memory.md R57). -/
def busBits : Nat := 32

/-- The bus address the platform gives the window, BLOCK_BASE (20_memory.md R51): open, and read by
no rule. -/
opaque blockBase : Nat

/-- The bus address of a byte offset of the window (20_memory.md R51). -/
def busAddress (off : Nat) : Nat := blockBase + off

/-- One less than CYCLES_PER_STEP, so that the parameter itself is positive (00_scope.md R11). -/
opaque extraCyclesPerStep : Nat

/-- CYCLES_PER_STEP, a positive integer the spec leaves open (00_scope.md R11). Timing only: no
other definition of the model reads it. -/
def cyclesPerStep : Nat := extraCyclesPerStep + 1

/-- A command's latency in clock cycles in a fixed-latency implementation, from the CMD write to
BUSY = 0 (70_reset_and_hazards.md R233). -/
def commandCycles : Nat := coreSteps * cyclesPerStep

/-- Free values: what V holds while BUSY = 0 after a commit is unspecified (10_state.md R34,
93_implementation_defined.md U1). The argument is a counter, so each commit has its own value. -/
opaque idleV : Nat → Quad

/-- Free values: RC while BUSY = 0 after a commit (R35, U2). -/
opaque idleRc : Nat → Fin 17

/-- Free values: OPL while BUSY = 0 after a commit (R36, U3). -/
opaque idleOpl : Nat → Opcode

/-- Free values: LENL while BUSY = 0 after a commit (R36, U3). -/
opaque idleLenl : Nat → BitVec 5

end Sys2Proof.Config
end

