-- ==== Sys2Proof/Syntax.lean ====
section
/-! DEFINITION. The instructions: one constructor per row of spec/opcode_table.json. The rows of
format CMD are command words, those of format BUS are bus requests (30_encoding.md R70). -/

namespace Sys2Proof

/-- What the block can be asked to do, one constructor per row of the opcode table.
A window index `j` and the free address bits `k` of a reserved row are the word's own number inside
its row; `wdata = none` in a refused row is a read. -/
inductive Instr where
  /-- PERM_FWD (41_permutation.md R134). -/
  | permFwd
  /-- PERM_INV (41_permutation.md R135). -/
  | permInv
  /-- CTR_XOR with its LEN field, legal or not (42_ctr_engine.md R163, 60_exceptions.md R193). -/
  | ctrXor (n : BitVec 5)
  /-- Every command word that is none of the three above (60_exceptions.md R192). -/
  | cmdIllegal (w : Word)
  /-- RD.CMD (40_host_interface.md R92). -/
  | rdCmd
  /-- WR.CMD (R103). -/
  | wrCmd (d : Word)
  /-- RD.STATUS (R93). -/
  | rdStatus
  /-- WR.STATUS (R105). -/
  | wrStatus (d : Word)
  /-- RD.reserved_08, offset 0x08 + 4k (R98). -/
  | rdReserved08 (k : Fin 2)
  /-- WR.reserved_08 (R105). -/
  | wrReserved08 (k : Fin 2) (d : Word)
  /-- RD.KEY[j] (R94). -/
  | rdKey (j : Fin 4)
  /-- WR.KEY[j] (R100). -/
  | wrKey (j : Fin 4) (d : Word)
  /-- RD.CTR[j] (R95). -/
  | rdCtr (j : Fin 4)
  /-- WR.CTR[j] (R101). -/
  | wrCtr (j : Fin 4) (d : Word)
  /-- RD.IN[j] (R96). -/
  | rdIn (j : Fin 4)
  /-- WR.IN[j] (R102). -/
  | wrIn (j : Fin 4) (d : Word)
  /-- RD.OUT[j] (R97). -/
  | rdOut (j : Fin 4)
  /-- WR.OUT[j] (R105). -/
  | wrOut (j : Fin 4) (d : Word)
  /-- RD.reserved_50, offset 0x50 + 4k (R98). -/
  | rdReserved50 (k : Fin 4)
  /-- WR.reserved_50 (R105). -/
  | wrReserved50 (k : Fin 4) (d : Word)
  /-- RD.reserved_60, offset 0x60 + 4k (R98). -/
  | rdReserved60 (k : Fin 8)
  /-- WR.reserved_60 (R105). -/
  | wrReserved60 (k : Fin 8) (d : Word)
  /-- RD.reserved_80, offset 0x80 + 4k (R98). -/
  | rdReserved80 (k : Fin 32)
  /-- WR.reserved_80 (R105). -/
  | wrReserved80 (k : Fin 32) (d : Word)
  /-- REFUSED.unaligned_1: offset 4h + 1, no transaction (R108). -/
  | refusedUnaligned1 (h : Fin 64) (wdata : Option Word)
  /-- REFUSED.unaligned_2: offset 4h + 2 (R108). -/
  | refusedUnaligned2 (h : Fin 64) (wdata : Option Word)
  /-- REFUSED.unaligned_3: offset 4h + 3 (R108). -/
  | refusedUnaligned3 (h : Fin 64) (wdata : Option Word)
deriving DecidableEq, Repr

end Sys2Proof
end

