-- ==== Sys2Proof/WellFormed.lean ====
section
/-! DEFINITION. Which terms of Instr are instructions: the window indices and the reserved offsets
are bounded by their types, so the one check left is that CMD.ILLEGAL, the row of lowest priority,
carries a word that none of the other command rows takes. -/

namespace Sys2Proof

/-- The words of CMD.ILLEGAL (60_exceptions.md R192): (a) RSV is not 0, (b) OP is 0x0 or 0x4 to
0xF, (c) OP is 0x1 or 0x2 and LEN is not 0. -/
def isIllegalWord (w : Word) : Bool :=
  let op := w.extractLsb' 0 4
  let len := w.extractLsb' 4 5
  let rsv := w.extractLsb' 9 23
  rsv != 0#23 || op == 0#4 || decide (4#4 ≤ op) || ((op == 1#4 || op == 2#4) && len != 0#5)

/-- An instruction the encoding can hold: CMD.ILLEGAL carries an illegal word. -/
def Instr.wellFormed : Instr → Bool
  | .cmdIllegal w => isIllegalWord w
  | .permFwd | .permInv | .ctrXor _ => true
  | .rdCmd | .wrCmd _ | .rdStatus | .wrStatus _ => true
  | .rdReserved08 _ | .wrReserved08 _ _ => true
  | .rdKey _ | .wrKey _ _ | .rdCtr _ | .wrCtr _ _ => true
  | .rdIn _ | .wrIn _ _ | .rdOut _ | .wrOut _ _ => true
  | .rdReserved50 _ | .wrReserved50 _ _ => true
  | .rdReserved60 _ | .wrReserved60 _ _ => true
  | .rdReserved80 _ | .wrReserved80 _ _ => true
  | .refusedUnaligned1 _ _ | .refusedUnaligned2 _ _ | .refusedUnaligned3 _ _ => true

end Sys2Proof
end

