-- ==== Sys2Proof/Decode.lean ====
section
/-! DEFINITION. The decoder, total on every request, and after it the encoder. A bus request is
decoded by its selector SEL = WE || ADDR (30_encoding.md R71, R72), a command word by R73 to R77. -/

namespace Sys2Proof

/-- OP, bits 3:0 of a command word (30_encoding.md R73). -/
def cmdOp (w : Word) : BitVec 4 := w.extractLsb' 0 4

/-- LEN, bits 8:4 (R73). -/
def cmdLen (w : Word) : BitVec 5 := w.extractLsb' 4 5

/-- RSV, bits 31:9 (R73). -/
def cmdRsv (w : Word) : BitVec 23 := w.extractLsb' 9 23

/-- LEN is a legal byte count of CTR_XOR: 1 to 16 (R75). -/
def legalLen (n : BitVec 5) : Bool := decide (1#5 ≤ n) && decide (n ≤ 16#5)

/-- `decode_cmd` (30_encoding.md R77), check for check and in its order: a legal command, or the
code the word rejects with. -/
def decodeCommand (w : Word) : Except ErrCode Command :=
  if cmdRsv w ≠ 0#23 then .error .illegalCommand
  else if cmdOp w = 1#4 ∧ cmdLen w = 0#5 then .ok .permFwd
  else if cmdOp w = 2#4 ∧ cmdLen w = 0#5 then .ok .permInv
  else if cmdOp w = 1#4 ∨ cmdOp w = 2#4 then .error .illegalCommand
  else if cmdOp w = 3#4 ∧ legalLen (cmdLen w) = true then .ok (.ctrXor (cmdLen w))
  else if cmdOp w = 3#4 then .error .invalidLength
  else .error .illegalCommand

/-- The opcode table's reading of a command word: the row it matches, CMD.ILLEGAL having the lowest
priority (30_encoding.md R74 to R78). CTR_XOR takes every LEN: an illegal one matches the row and
rejects when it runs (60_exceptions.md R193). -/
def decodeCmdWord (w : Word) : Instr :=
  if w = 0x00000001#32 then .permFwd
  else if w = 0x00000002#32 then .permInv
  else if cmdRsv w = 0#23 ∧ cmdOp w = 3#4 then .ctrXor (cmdLen w)
  else .cmdIllegal w

/-- The read or the write of one register, by WE: write data present or absent (R71). -/
def readOrWrite (wdata : Option Word) (rd : Instr) (wr : Word → Instr) : Instr :=
  match wdata with
  | none => rd
  | some d => wr d

/-- A bus request inside the window, decoded by the bits of ADDR (30_encoding.md R72): ADDR[1:0]
first, then ADDR[7:4], then the bits the row leaves free. -/
def decodeAddr (a : BitVec 8) (wdata : Option Word) : Instr :=
  let h := (a.extractLsb' 2 6).toFin
  let jj := (a.extractLsb' 2 2).toFin
  let page := a.extractLsb' 4 4
  if a.extractLsb' 0 2 = 1#2 then .refusedUnaligned1 h wdata
  else if a.extractLsb' 0 2 = 2#2 then .refusedUnaligned2 h wdata
  else if a.extractLsb' 0 2 = 3#2 then .refusedUnaligned3 h wdata
  else if a = 0x00#8 then readOrWrite wdata .rdCmd .wrCmd
  else if a = 0x04#8 then readOrWrite wdata .rdStatus .wrStatus
  else if page = 0#4 then
    let k := (a.extractLsb' 2 1).toFin
    readOrWrite wdata (.rdReserved08 k) (.wrReserved08 k)
  else if page = 1#4 then readOrWrite wdata (.rdKey jj) (.wrKey jj)
  else if page = 2#4 then readOrWrite wdata (.rdCtr jj) (.wrCtr jj)
  else if page = 3#4 then readOrWrite wdata (.rdIn jj) (.wrIn jj)
  else if page = 4#4 then readOrWrite wdata (.rdOut jj) (.wrOut jj)
  else if page = 5#4 then readOrWrite wdata (.rdReserved50 jj) (.wrReserved50 jj)
  else if a.extractLsb' 5 3 = 3#3 then
    let k := (a.extractLsb' 2 3).toFin
    readOrWrite wdata (.rdReserved60 k) (.wrReserved60 k)
  else
    let k := (a.extractLsb' 2 5).toFin
    readOrWrite wdata (.rdReserved80 k) (.wrReserved80 k)

/-- A bus request: a width other than 32 bits (20_memory.md R57) or an offset past the window
(R51, R58) is no transaction of this block; every other request is a row of the table. -/
def decodeBus (r : BusRequest) : Except DecodeError Instr :=
  if r.width ≠ Config.busBits then .error .notWordAccess
  else if Config.lastOffset < r.off then .error .outOfWindow
  else .ok (decodeAddr (BitVec.ofNat 8 r.off) r.wdata)

/-- The decoder of the block's two formats (30_encoding.md R70). -/
def decode : Request → Except DecodeError Instr
  | .bus r => decodeBus r
  | .cmd w => .ok (decodeCmdWord w)

/-- A 32-bit read of the register at a byte offset: BUS WE = 0 (30_encoding.md R80). -/
def readReq (off : Nat) : Request := .bus { off := off, width := Config.busBits, wdata := none }

/-- A 32-bit write of the register at a byte offset: BUS WE = 1 (R80). -/
def writeReq (off : Nat) (d : Word) : Request :=
  .bus { off := off, width := Config.busBits, wdata := some d }

/-- Byte offset of CMD (20_memory.md R52). -/
def offCmd : Nat := 0x00

/-- Byte offset of STATUS (R52). -/
def offStatus : Nat := 0x04

/-- Byte offset of word `j` of a window or a reserved range based at `base` (R52). -/
def offWord (base j : Nat) : Nat := base + 4 * j

/-- `base_KEY` (R52). -/
def baseKey : Nat := 0x10

/-- `base_CTR` (R52). -/
def baseCtr : Nat := 0x20

/-- `base_IN` (R52). -/
def baseIn : Nat := 0x30

/-- `base_OUT` (R52). -/
def baseOut : Nat := 0x40

/-- A request of no register: any offset, read or write (R108). -/
def rawReq (off : Nat) (wdata : Option Word) : Request :=
  .bus { off := off, width := Config.busBits, wdata := wdata }

/-- The encoder: the request a host presents for an instruction, from the register map (20_memory.md
R52) and the command word (30_encoding.md R73). -/
def encode : Instr → Request
  | .permFwd => .cmd (0#23 ++ 0#5 ++ 1#4)
  | .permInv => .cmd (0#23 ++ 0#5 ++ 2#4)
  | .ctrXor n => .cmd (0#23 ++ n ++ 3#4)
  | .cmdIllegal w => .cmd w
  | .rdCmd => readReq offCmd
  | .wrCmd d => writeReq offCmd d
  | .rdStatus => readReq offStatus
  | .wrStatus d => writeReq offStatus d
  | .rdReserved08 k => readReq (offWord 0x08 k)
  | .wrReserved08 k d => writeReq (offWord 0x08 k) d
  | .rdKey j => readReq (offWord baseKey j)
  | .wrKey j d => writeReq (offWord baseKey j) d
  | .rdCtr j => readReq (offWord baseCtr j)
  | .wrCtr j d => writeReq (offWord baseCtr j) d
  | .rdIn j => readReq (offWord baseIn j)
  | .wrIn j d => writeReq (offWord baseIn j) d
  | .rdOut j => readReq (offWord baseOut j)
  | .wrOut j d => writeReq (offWord baseOut j) d
  | .rdReserved50 k => readReq (offWord 0x50 k)
  | .wrReserved50 k d => writeReq (offWord 0x50 k) d
  | .rdReserved60 k => readReq (offWord 0x60 k)
  | .wrReserved60 k d => writeReq (offWord 0x60 k) d
  | .rdReserved80 k => readReq (offWord 0x80 k)
  | .wrReserved80 k d => writeReq (offWord 0x80 k) d
  | .refusedUnaligned1 h wd => rawReq (offWord 1 h) wd
  | .refusedUnaligned2 h wd => rawReq (offWord 2 h) wd
  | .refusedUnaligned3 h wd => rawReq (offWord 3 h) wd

/-- The request that a word of the opcode table stands for (notes/assumptions/12.md). A row of 9 to
16 bits is a selector SEL = WE || ADDR (30_encoding.md R71), whose write data, having no bits in the
table, is 0; a row of 32 bits is a command word. A row the table gives at most 8 bits is a refused
bus row where ADDR[1:0] is not 00, and CMD.ILLEGAL, which fixes no bit, otherwise. A number too
large for its format becomes a request past the window, which the decoder refuses. -/
def tableRequest (nbits w : Nat) : Request :=
  if nbits ≤ 8 then
    if w % 4 = 0 then .cmd (BitVec.ofNat 32 w) else rawReq w none
  else if nbits ≤ 16 then
    if w < 0x100 then rawReq w none
    else if w < 0x200 then rawReq (w - 0x100) (some 0#32)
    else rawReq w none
  else if w < 2 ^ 32 then .cmd (BitVec.ofNat 32 w)
  else rawReq w none

/-- What the decoder reads from an instruction whose bits the opcode table numbers `w`. -/
def decodeTableWord (nbits w : Nat) : Option Instr :=
  match decode (tableRequest nbits w) with
  | .ok i => some i
  | .error _ => none

end Sys2Proof
end

