-- ==== Sys2Proof/Machine/State.lean ====
section
/-! DEFINITION. The state of the block (10_state.md R37), the model's own fields for the host that
drives it, the reasons a step can stop, and the state right after reset (R38). -/

namespace Sys2Proof.Machine

/-- The machine. The first thirteen fields are the complete state of the block (10_state.md R37);
the last four are the model's own: the host, the interleaving and the count of free values used
(notes/assumptions/2.md, 3.md, 4.md, 5.md). -/
structure State where
  /-- KEY[0..3], write-only (R22). -/
  key : Quad
  /-- CTR[0..3], read-write (R23). -/
  ctr : Quad
  /-- IN[0..3], read-write (R25). -/
  inp : Quad
  /-- OUT[0..3], read-only (R26). -/
  out : Quad
  /-- STATUS.BUSY (R28). -/
  busy : Bool
  /-- STATUS.DONE (R28). -/
  done : Bool
  /-- STATUS.ERR (R30). -/
  err : ErrCode
  /-- KEY_WR, the write mask behind KEY_VALID (R33). -/
  keyWr : BitVec 4
  /-- CTR_WR, the write mask behind CTR_VALID (R33). -/
  ctrWr : BitVec 4
  /-- V[0..3], the permutation state (R34). -/
  v : Quad
  /-- RC, the round counter, an integer from 0 to 16 (R35). -/
  rc : Fin 17
  /-- OPL, the latched opcode (R36). -/
  opl : Opcode
  /-- LENL, the latched length (R36). -/
  lenl : BitVec 5
  /-- MODEL: what the host has still to do, the next operation first. -/
  pending : List HostOp
  /-- MODEL: which agent takes each of the next steps; once empty, the core while BUSY = 1 and the
  host otherwise. -/
  turns : List Agent
  /-- MODEL: the RDATA values the host's reads have returned, the newest first. -/
  reads : List Word
  /-- MODEL: how many free values the commits have used; the next one is numbered by it. -/
  freeCount : Nat
deriving DecidableEq, Repr

/-- The block "raises no trap and no exception in the processor sense" (60_exceptions.md R190), and
an error is a code in STATUS.ERR, so there is no reason to fault: the type has no constructor. -/
inductive Fault where
deriving DecidableEq, Repr

/-- The reasons a step answers no state. Each errs toward unprovable (safe): the request is none of
the block's, so no claim about the block rests on it. -/
inductive Refusal where
  /-- The instruction has no meaning yet; raised by exec's arms only. Safe. -/
  | notModelled (mnemonic : String)
  /-- "REFUSED: unaligned or out-of-window offset" (40_host_interface.md R108): raised by the three
  refused rows of the opcode table, and by the host's turn on an offset past the window. Safe. -/
  | unalignedOrOutOfWindowOffset
  /-- A bus request whose width is not 32 bits (20_memory.md R57, 93_implementation_defined.md U13):
  raised by the host's turn. Safe. -/
  | notWordAccess
deriving DecidableEq, Repr

/-- What one step or one instruction answers. -/
abbrev Answer := Host.Outcome State Fault Refusal

/-- Four words of zero: the reset value of every window (10_state.md R38). -/
def zeroQuad : Quad := ⟨0#32, 0#32, 0#32, 0#32⟩

/-- The machine right after reset (10_state.md R38, 70_reset_and_hazards.md R220). V, RC, OPL and
LENL, which the spec leaves unspecified, hold zeros and PERM_FWD (DESIGN CHOICE,
notes/assumptions/1.md); the host has issued nothing. -/
def State.reset : State where
  key := zeroQuad
  ctr := zeroQuad
  inp := zeroQuad
  out := zeroQuad
  busy := false
  done := false
  err := .none
  keyWr := 0#4
  ctrWr := 0#4
  v := zeroQuad
  rc := 0
  opl := .permFwd
  lenl := 0#5
  pending := []
  turns := []
  reads := []
  freeCount := 0

end Sys2Proof.Machine
end

