-- ==== Sys2Proof/Machine/Operands.lean ====
section
/-! DEFINITION. Access to the words and bytes of a 16-byte quantity, the byte orders (20_memory.md
R54 to R56, 00_scope.md R14), and the word operators of the datapath (41_permutation.md R120 to
R124). -/

namespace Sys2Proof.Machine

/-- Word `X[j]` of a window (10_state.md R21). -/
def wordAt (q : Quad) (j : Fin 4) : Word :=
  match j with
  | 0 => q.w0
  | 1 => q.w1
  | 2 => q.w2
  | 3 => q.w3

/-- The window after `X[j] <- d`. -/
def setWord (q : Quad) (j : Fin 4) (d : Word) : Quad :=
  match j with
  | 0 => { q with w0 := d }
  | 1 => { q with w1 := d }
  | 2 => { q with w2 := d }
  | 3 => { q with w3 := d }

/-- A write mask after its bit `j` is set (10_state.md R33). -/
def setMaskBit (m : BitVec 4) (j : Fin 4) : BitVec 4 := m ||| (1#4 <<< j.val)

/-- The bitwise exclusive OR of two quantities, word by word (41_permutation.md R131). -/
def xorQuad (a b : Quad) : Quad :=
  ⟨a.w0 ^^^ b.w0, a.w1 ^^^ b.w1, a.w2 ^^^ b.w2, a.w3 ^^^ b.w3⟩

/-- Byte `b` of a word: bits `8b+7 : 8b` (20_memory.md R56). -/
def byteOfWord (w : Word) (b : Nat) : Byte := w.extractLsb' (8 * b) 8

/-- `LE32(b0, b1, b2, b3)` (00_scope.md R14): `b0` is the least significant byte. -/
def le32 (b0 b1 b2 b3 : Byte) : Word := b3 ++ b2 ++ b1 ++ b0

/-- `words(B)`, the little-endian packing (00_scope.md R14, 20_memory.md R54). -/
def wordsOf (b : Bytes16) : Quad :=
  ⟨le32 (b 0) (b 1) (b 2) (b 3), le32 (b 4) (b 5) (b 6) (b 7),
   le32 (b 8) (b 9) (b 10) (b 11), le32 (b 12) (b 13) (b 14) (b 15)⟩

/-- `bytes(W)`, the inverse of `words` (00_scope.md R14): byte `4j+b` is bits `8b+7 : 8b` of word
`j` (20_memory.md R56). -/
def bytesOf (q : Quad) : Bytes16 := fun i =>
  byteOfWord (wordAt q ⟨i.val / 4, by omega⟩) (i.val % 4)

/-- `bswap32(x)` reverses the four bytes of a word (10_state.md R24). -/
def bswap32 (x : Word) : Word :=
  byteOfWord x 0 ++ byteOfWord x 1 ++ byteOfWord x 2 ++ byteOfWord x 3

/-- `BE128(B)` (00_scope.md R14): the counter's integer value, `B[0]` the most significant byte. -/
def be128 (b : Bytes16) : BitVec 128 :=
  b 0 ++ b 1 ++ b 2 ++ b 3 ++ b 4 ++ b 5 ++ b 6 ++ b 7 ++
  b 8 ++ b 9 ++ b 10 ++ b 11 ++ b 12 ++ b 13 ++ b 14 ++ b 15

/-- `BE128inv(c)`, the 16 bytes whose BE128 is `c` (00_scope.md R14). -/
def be128inv (c : BitVec 128) : Bytes16 := fun i => c.extractLsb' (8 * (15 - i.val)) 8

/-- ADD32 (41_permutation.md R120): the sum modulo 2^32. -/
def add32 (a b : Word) : Word := BitVec.ofNat 32 (a.toNat + b.toNat)

/-- SUB32 (R121): the difference modulo 2^32. -/
def sub32 (a b : Word) : Word := BitVec.ofInt 32 ((a.toNat : Int) - (b.toNat : Int))

/-- ROTL32 (R123), by `r mod 32` bits, with logical shifts. -/
def rotl32 (x : Word) (r : Nat) : Word :=
  let s := r % 32
  if s = 0 then x else (x <<< s) ||| (x >>> (32 - s))

/-- ROTR32 (R124), by `r mod 32` bits, with logical shifts. -/
def rotr32 (x : Word) (r : Nat) : Word :=
  let s := r % 32
  if s = 0 then x else (x >>> s) ||| (x <<< (32 - s))

end Sys2Proof.Machine
end

