-- ==== Sys2Proof/Machine/Flags.lean ====
section
/-! DEFINITION. The status of the block: the STATUS word as a read returns it (10_state.md R28,
40_host_interface.md R93), the error codes (R30) and the two valid views (R31). -/

namespace Sys2Proof.Machine

/-- The code of an error in STATUS.ERR (10_state.md R30, 60_exceptions.md R191). -/
def errCodeBits : ErrCode → BitVec 4
  | .none => 0#4
  | .illegalCommand => 1#4
  | .invalidLength => 2#4
  | .missingKey => 3#4
  | .missingCounterState => 4#4
  | .busy => 5#4

/-- KEY_VALID (10_state.md R31). -/
def keyValid (s : State) : Bool := s.keyWr == 0b1111#4

/-- CTR_VALID (R31). -/
def ctrValid (s : State) : Bool := s.ctrWr == 0b1111#4

/-- STATUS (R28, 40_host_interface.md R93):
`CTR_VALID || KEY_VALID || ERR[3:0] || 00 || DONE || BUSY`, zero-extended to 32 bits. -/
def statusWord (s : State) : Word :=
  (BitVec.ofBool (ctrValid s) ++ BitVec.ofBool (keyValid s) ++ errCodeBits s.err ++ 0#2 ++
    BitVec.ofBool s.done ++ BitVec.ofBool s.busy).setWidth 32

end Sys2Proof.Machine
end

