-- ==== Sys2Proof/Machine/Permutation.lean ====
section
/-! DEFINITION. The permutation datapath: the round and its inverse, step for step, the whitening
and the whole permutation (41_permutation.md R126 to R132). -/

namespace Sys2Proof.Machine

/-- ROUND_FWD, the steps F1 to F14 (41_permutation.md R126). -/
def roundFwd (q : Quad) : Quad :=
  let v0 := add32 q.w0 q.w1    -- F1
  let v1 := rotl32 q.w1 5      -- F2
  let v1 := v1 ^^^ v0          -- F3
  let v0 := rotl32 v0 16       -- F4
  let v2 := add32 q.w2 q.w3    -- F5
  let v3 := rotl32 q.w3 8      -- F6
  let v3 := v3 ^^^ v2          -- F7
  let v0 := add32 v0 v3        -- F8
  let v3 := rotl32 v3 13       -- F9
  let v3 := v3 ^^^ v0          -- F10
  let v2 := add32 v2 v1        -- F11
  let v1 := rotl32 v1 7        -- F12
  let v1 := v1 ^^^ v2          -- F13
  let v2 := rotl32 v2 16       -- F14
  ⟨v0, v1, v2, v3⟩

/-- ROUND_INV, the steps I1 to I14, each undoing one step of ROUND_FWD (R127). -/
def roundInv (q : Quad) : Quad :=
  let v2 := rotr32 q.w2 16     -- I1
  let v1 := q.w1 ^^^ v2        -- I2
  let v1 := rotr32 v1 7        -- I3
  let v2 := sub32 v2 v1        -- I4
  let v3 := q.w3 ^^^ q.w0      -- I5
  let v3 := rotr32 v3 13       -- I6
  let v0 := sub32 q.w0 v3      -- I7
  let v3 := v3 ^^^ v2          -- I8
  let v3 := rotr32 v3 8        -- I9
  let v2 := sub32 v2 v3        -- I10
  let v0 := rotr32 v0 16       -- I11
  let v1 := v1 ^^^ v0          -- I12
  let v1 := rotr32 v1 5        -- I13
  let v0 := sub32 v0 v1        -- I14
  ⟨v0, v1, v2, v3⟩

/-- One round in a direction (R132). -/
def roundDir (dir : Direction) (q : Quad) : Quad :=
  match dir with
  | .forward => roundFwd q
  | .inverse => roundInv q

/-- `n` rounds in a direction, one after the other (R132). -/
def roundsDir (dir : Direction) : Nat → Quad → Quad
  | 0, q => q
  | n + 1, q => roundDir dir (roundsDir dir n q)

/-- PERMUTE on words (R132): whitening, 16 rounds, whitening, with the key unchanged throughout
(R131). -/
def permuteWords (dir : Direction) (key block : Quad) : Quad :=
  xorQuad (roundsDir dir Config.rounds (xorQuad block key)) key

/-- PERMUTE on 16-byte keys and blocks, packed little-endian (R130, R132). -/
def permute (dir : Direction) (key block : Bytes16) : Bytes16 :=
  bytesOf (permuteWords dir (wordsOf key) (wordsOf block))

/-- The direction a latched opcode runs its rounds in: only PERM_INV runs them inverse (R136). -/
def opDirection : Opcode → Direction
  | .permInv => .inverse
  | .permFwd => .forward
  | .ctrXor => .forward

end Sys2Proof.Machine
end

