-- ==== Sys2Proof/Machine/Counter.lean ====
section
/-! DEFINITION. The counter and the keystream: the integer view of CTR (10_state.md R24), INC128
(42_ctr_engine.md R160, R161), the keystream block (R162) and the output of CTR_XOR (R163, R166). -/

namespace Sys2Proof.Machine

/-- The counter's value, `C = BE128(CTRB)` (10_state.md R23, 20_memory.md R55). -/
def counterValue (ctr : Quad) : BitVec 128 := be128 (bytesOf ctr)

/-- The CTR words that hold a counter value (10_state.md R24). -/
def counterWords (c : BitVec 128) : Quad := wordsOf (be128inv c)

/-- INC128 on the CTR registers (42_ctr_engine.md R160, R161): plus 1 modulo 2^128. -/
def inc128 (ctr : Quad) : Quad := counterWords (counterValue ctr + 1#128)

/-- KS(KEYB, CTRB), the keystream block (R162): the forward permutation of the counter bytes. -/
def keystream (key ctr : Bytes16) : Bytes16 := permute .forward key ctr

/-- The output bytes of CTR_XOR n: data XOR keystream below `n`, zero from `n` on (R163, R166). -/
def ctrXorBytes (n : Nat) (data ks : Bytes16) : Bytes16 := fun i =>
  if i.val < n then data i ^^^ ks i else 0#8

end Sys2Proof.Machine
end

