-- ==== Sys2Proof/Machine/Ops.lean ====
section
/-! DEFINITION. The operations the meanings share: returning read data, the busy rule, rejecting a
command, accepting one, the core's steps and reset. The block has no trap: a reject (60_exceptions.md
R196) and a dropped write (R197) are what it has in the place of taking an exception, and accepting
a command (40_host_interface.md R104) is what clears ERR again (R199). -/

namespace Sys2Proof.Machine

/-- A read answers `d` on RDATA (30_encoding.md R71) and changes no state of the block
(20_memory.md R60). -/
def readReturns (d : Word) (s : State) : State := { s with reads := d :: s.reads }

/-- A write taken while BUSY = 1 is dropped: `STATUS.ERR <- 5`, nothing else (40_host_interface.md
R99, 60_exceptions.md R197). -/
def dropWrite (s : State) : State := { s with err := .busy }

/-- The busy rule: a write to CMD, KEY, CTR or IN is dropped while BUSY = 1, else it has its effect
(R99). -/
def unlessBusy (write : State → State) (s : State) : State :=
  if s.busy = true then dropWrite s else write s

/-- `raise Reject(code)`: `STATUS.ERR <- code`, `STATUS.DONE <- 0`, nothing else (R196). -/
def rejectCommand (code : ErrCode) (s : State) : State := { s with err := code, done := false }

/-- OPL of a command (40_host_interface.md R104). -/
def commandOp : Command → Opcode
  | .permFwd => .permFwd
  | .permInv => .permInv
  | .ctrXor _ => .ctrXor

/-- LENL of a command (R104): LEN for CTR_XOR, else 0. -/
def commandLen : Command → BitVec 5
  | .permFwd => 0#5
  | .permInv => 0#5
  | .ctrXor n => n

/-- The words of a command's input block (R104): CTR for CTR_XOR, IN for the permutations. -/
def inputBlock (op : Opcode) (s : State) : Quad :=
  match op with
  | .ctrXor => s.ctr
  | .permFwd => s.inp
  | .permInv => s.inp

/-- `accept(c)` starts the core (R104): latches the command, whitens the input block into V, clears
RC, and sets BUSY, DONE and ERR. -/
def acceptCommand (c : Command) (s : State) : State :=
  { s with
    opl := commandOp c
    lenl := commandLen c
    v := xorQuad (inputBlock (commandOp c) s) s.key
    rc := 0
    busy := true
    done := false
    err := .none }

/-- CTR_XOR is the one command that needs the counter (R103). -/
def needsCounter : Command → Bool
  | .ctrXor _ => true
  | .permFwd => false
  | .permInv => false

/-- The checks of a command word after the busy rule, in the order of R103 (60_exceptions.md R198):
the decode's own code, MISSING_KEY, MISSING_COUNTER_STATE; a command that passes all is accepted. -/
def checkCommand (c : Except ErrCode Command) (s : State) : State :=
  match c with
  | .error code => rejectCommand code s
  | .ok c =>
    if keyValid s = false then rejectCommand .missingKey s
    else if needsCounter c = true ∧ ctrValid s = false then rejectCommand .missingCounterState s
    else acceptCommand c s

/-- A command presented to CMD: the busy rule first (R99), then the checks (R103). -/
def presentCommand (c : Except ErrCode Command) (s : State) : State := unlessBusy (checkCommand c) s

/-- `KEY[j] <- d; KEY_WR[j] <- 1` (R100). -/
def storeKey (j : Fin 4) (d : Word) (s : State) : State :=
  { s with key := setWord s.key j d, keyWr := setMaskBit s.keyWr j }

/-- `CTR[j] <- d; CTR_WR[j] <- 1` (R101). -/
def storeCtr (j : Fin 4) (d : Word) (s : State) : State :=
  { s with ctr := setWord s.ctr j d, ctrWr := setMaskBit s.ctrWr j }

/-- `IN[j] <- d` (R102); IN has no write mask. -/
def storeIn (j : Fin 4) (d : Word) (s : State) : State := { s with inp := setWord s.inp j d }

/-- A write to STATUS, OUT or a reserved offset: no effect, whatever BUSY is (R105). -/
def ignoreWrite (s : State) : State := s

/-- A request that is no transaction of the block: refused by name, with no effect (R108). -/
def refuseOffset : Answer := .refused .unalignedOrOutOfWindowOffset

/-- The next round count; from 16 the core commits instead (10_state.md R35). -/
def nextRc (rc : Fin 17) : Fin 17 := if h : rc.val < 16 then ⟨rc.val + 1, by omega⟩ else rc

/-- The core's round step (41_permutation.md R136). -/
def roundStep (s : State) : State :=
  { s with v := roundDir (opDirection s.opl) s.v, rc := nextRc s.rc }

/-- The end of a command: `STATUS.BUSY <- 0; STATUS.DONE <- 1` (41_permutation.md R137), ERR left as
it is. From here on V, RC, OPL and LENL are unspecified (10_state.md R34 to R36): each holds a free
value (notes/assumptions/2.md). -/
def finishCommand (s : State) : State :=
  { s with
    busy := false
    done := true
    v := Config.idleV s.freeCount
    rc := Config.idleRc s.freeCount
    opl := Config.idleOpl s.freeCount
    lenl := Config.idleLenl s.freeCount
    freeCount := s.freeCount + 1 }

/-- The core's commit step of PERM_FWD and PERM_INV (R137): the final whitening into OUT. -/
def commitPerm (s : State) : State := finishCommand { s with out := xorQuad s.v s.key }

/-- What CTR_XOR commits to OUT (42_ctr_engine.md R165): the keystream from the final whitening,
XORed into the first LENL data bytes. -/
def ctrOutput (s : State) : Quad :=
  wordsOf (ctrXorBytes s.lenl.toNat (bytesOf s.inp) (bytesOf (xorQuad s.v s.key)))

/-- The core's commit step of CTR_XOR (R165): OUT, and the counter plus 1. -/
def commitCtr (s : State) : State := finishCommand { s with out := ctrOutput s, ctr := inc128 s.ctr }

/-- The commit step by the latched opcode. -/
def commitStep (s : State) : State :=
  match s.opl with
  | .permFwd => commitPerm s
  | .permInv => commitPerm s
  | .ctrXor => commitCtr s

/-- One step of the core while BUSY = 1 (R136, R137, R165): a round while RC < 16, else the
commit. -/
def coreStep (s : State) : State := if s.rc.val < Config.rounds then roundStep s else commitStep s

/-- The core's turn: a core step happens only while BUSY = 1 (20_memory.md R62). -/
def coreTurn (s : State) : State := if s.busy = true then coreStep s else s

/-- `n` turns of the core in a row. -/
def coreTurns : Nat → State → State
  | 0, s => s
  | n + 1, s => coreTurns n (coreTurn s)

/-- Reset (70_reset_and_hazards.md R220): every register of the block at its reset value, a running
command abandoned with no commit. The model's own fields are no state of the block and stay. -/
def resetBlock (s : State) : State :=
  { State.reset with
    pending := s.pending
    turns := s.turns
    reads := s.reads
    freeCount := s.freeCount }

end Sys2Proof.Machine
end

