-- ==== Sys2Proof/Machine/Commands.lean ====
section
/-! DEFINITION. The command words (opcode table, format CMD): each is presented to CMD
(40_host_interface.md R99, R103) and, where accepted, started (R104); the core's steps finish it. -/

namespace Sys2Proof.Machine

/-- PERM_FWD (41_permutation.md R134). -/
def execPermFwd (s : State) : Answer := .next (presentCommand (.ok .permFwd) s)

/-- PERM_INV (R135). -/
def execPermInv (s : State) : Answer := .next (presentCommand (.ok .permInv) s)

/-- CTR_XOR n (42_ctr_engine.md R163): a LEN of 0 or 17 to 31 rejects with INVALID_LENGTH
(60_exceptions.md R193). -/
def execCtrXor (n : BitVec 5) (s : State) : Answer :=
  .next (presentCommand (if legalLen n = true then .ok (.ctrXor n) else .error .invalidLength) s)

/-- Every other command word rejects with ILLEGAL_COMMAND (60_exceptions.md R192, 30_encoding.md
R78). -/
def execCmdIllegal (_w : Word) (s : State) : Answer :=
  .next (presentCommand (.error .illegalCommand) s)

end Sys2Proof.Machine
end

