-- ==== Sys2Proof/Machine/Reads.lean ====
section
/-! DEFINITION. The bus reads (40_host_interface.md R91 to R98). -/

namespace Sys2Proof.Machine

/-- RD.CMD returns 0 (R92). -/
def execRdCmd (s : State) : Answer := .next (readReturns 0#32 s)

/-- RD.STATUS (R93). -/
def execRdStatus (s : State) : Answer := .next (readReturns (statusWord s) s)

/-- RD.KEY[j] returns 0: the key is write-only (R94). -/
def execRdKey (_j : Fin 4) (s : State) : Answer := .next (readReturns 0#32 s)

/-- RD.CTR[j] (R95). -/
def execRdCtr (j : Fin 4) (s : State) : Answer := .next (readReturns (wordAt s.ctr j) s)

/-- RD.IN[j] (R96). -/
def execRdIn (j : Fin 4) (s : State) : Answer := .next (readReturns (wordAt s.inp j) s)

/-- RD.OUT[j] (R97). -/
def execRdOut (j : Fin 4) (s : State) : Answer := .next (readReturns (wordAt s.out j) s)

/-- RD.reserved at 0x08 and 0x0C returns 0 (R98). -/
def execRdReserved08 (_k : Fin 2) (s : State) : Answer := .next (readReturns 0#32 s)

/-- RD.reserved at 0x50 to 0x5C returns 0 (R98). -/
def execRdReserved50 (_k : Fin 4) (s : State) : Answer := .next (readReturns 0#32 s)

/-- RD.reserved at 0x60 to 0x7C returns 0 (R98). -/
def execRdReserved60 (_k : Fin 8) (s : State) : Answer := .next (readReturns 0#32 s)

/-- RD.reserved at 0x80 to 0xFC returns 0 (R98). -/
def execRdReserved80 (_k : Fin 32) (s : State) : Answer := .next (readReturns 0#32 s)

end Sys2Proof.Machine
end

