-- ==== Sys2Proof/Machine/Refused.lean ====
section
/-! DEFINITION. The three rows of the opcode table that are no transaction of the block: an offset
with ADDR[1:0] other than 00, which "a model refuses" by name (40_host_interface.md R108). -/

namespace Sys2Proof.Machine

/-- REFUSED.unaligned_1: ADDR[1:0] = 01 (R108). -/
def execRefusedUnaligned1 (_h : Fin 64) (_wdata : Option Word) (_s : State) : Answer := refuseOffset

/-- REFUSED.unaligned_2: ADDR[1:0] = 10 (R108). -/
def execRefusedUnaligned2 (_h : Fin 64) (_wdata : Option Word) (_s : State) : Answer := refuseOffset

/-- REFUSED.unaligned_3: ADDR[1:0] = 11 (R108). -/
def execRefusedUnaligned3 (_h : Fin 64) (_wdata : Option Word) (_s : State) : Answer := refuseOffset

end Sys2Proof.Machine
end

