-- ==== Sys2Proof/Machine/Writes.lean ====
section
/-! DEFINITION. The bus writes (40_host_interface.md R99 to R105). -/

namespace Sys2Proof.Machine

/-- WR.CMD (R103): the word is decoded at the write. -/
def execWrCmd (d : Word) (s : State) : Answer := .next (presentCommand (decodeCommand d) s)

/-- WR.STATUS is ignored (R105). -/
def execWrStatus (_d : Word) (s : State) : Answer := .next (ignoreWrite s)

/-- WR.KEY[j] (R100), dropped while BUSY = 1 (R99). -/
def execWrKey (j : Fin 4) (d : Word) (s : State) : Answer := .next (unlessBusy (storeKey j d) s)

/-- WR.CTR[j] (R101), dropped while BUSY = 1 (R99). -/
def execWrCtr (j : Fin 4) (d : Word) (s : State) : Answer := .next (unlessBusy (storeCtr j d) s)

/-- WR.IN[j] (R102), dropped while BUSY = 1 (R99). -/
def execWrIn (j : Fin 4) (d : Word) (s : State) : Answer := .next (unlessBusy (storeIn j d) s)

/-- WR.OUT[j] is ignored (R105). -/
def execWrOut (_j : Fin 4) (_d : Word) (s : State) : Answer := .next (ignoreWrite s)

/-- WR.reserved at 0x08 and 0x0C is ignored (R105). -/
def execWrReserved08 (_k : Fin 2) (_d : Word) (s : State) : Answer := .next (ignoreWrite s)

/-- WR.reserved at 0x50 to 0x5C is ignored (R105). -/
def execWrReserved50 (_k : Fin 4) (_d : Word) (s : State) : Answer := .next (ignoreWrite s)

/-- WR.reserved at 0x60 to 0x7C is ignored (R105). -/
def execWrReserved60 (_k : Fin 8) (_d : Word) (s : State) : Answer := .next (ignoreWrite s)

/-- WR.reserved at 0x80 to 0xFC is ignored (R105). -/
def execWrReserved80 (_k : Fin 32) (_d : Word) (s : State) : Answer := .next (ignoreWrite s)

end Sys2Proof.Machine
end

