-- ==== Sys2Proof/Machine/Dispatch.lean ====
section
/-! DEFINITION. exec: one arm per instruction, each a direct call of its meaning. -/

namespace Sys2Proof.Machine

/-- The effect of one instruction on the state. -/
def exec (i : Instr) (s : State) : Host.Outcome State Fault Refusal :=
  match i with
  | .permFwd => Sys2Proof.Machine.execPermFwd s
  | .permInv => Sys2Proof.Machine.execPermInv s
  | .ctrXor n => Sys2Proof.Machine.execCtrXor n s
  | .cmdIllegal w => Sys2Proof.Machine.execCmdIllegal w s
  | .rdCmd => Sys2Proof.Machine.execRdCmd s
  | .wrCmd d => Sys2Proof.Machine.execWrCmd d s
  | .rdStatus => Sys2Proof.Machine.execRdStatus s
  | .wrStatus d => Sys2Proof.Machine.execWrStatus d s
  | .rdReserved08 k => Sys2Proof.Machine.execRdReserved08 k s
  | .wrReserved08 k d => Sys2Proof.Machine.execWrReserved08 k d s
  | .rdKey j => Sys2Proof.Machine.execRdKey j s
  | .wrKey j d => Sys2Proof.Machine.execWrKey j d s
  | .rdCtr j => Sys2Proof.Machine.execRdCtr j s
  | .wrCtr j d => Sys2Proof.Machine.execWrCtr j d s
  | .rdIn j => Sys2Proof.Machine.execRdIn j s
  | .wrIn j d => Sys2Proof.Machine.execWrIn j d s
  | .rdOut j => Sys2Proof.Machine.execRdOut j s
  | .wrOut j d => Sys2Proof.Machine.execWrOut j d s
  | .rdReserved50 k => Sys2Proof.Machine.execRdReserved50 k s
  | .wrReserved50 k d => Sys2Proof.Machine.execWrReserved50 k d s
  | .rdReserved60 k => Sys2Proof.Machine.execRdReserved60 k s
  | .wrReserved60 k d => Sys2Proof.Machine.execWrReserved60 k d s
  | .rdReserved80 k => Sys2Proof.Machine.execRdReserved80 k s
  | .wrReserved80 k d => Sys2Proof.Machine.execWrReserved80 k d s
  | .refusedUnaligned1 h wd => Sys2Proof.Machine.execRefusedUnaligned1 h wd s
  | .refusedUnaligned2 h wd => Sys2Proof.Machine.execRefusedUnaligned2 h wd s
  | .refusedUnaligned3 h wd => Sys2Proof.Machine.execRefusedUnaligned3 h wd s

end Sys2Proof.Machine
end

