-- ==== Sys2Proof/Machine/HostAgent.lean ====
section
/-! DEFINITION. The two agents' turns (20_memory.md R62): who moves next, and what the host does at
its turn: present a request, reset the block (40_host_interface.md R106), or poll STATUS
(30_encoding.md R81). -/

namespace Sys2Proof.Machine

/-- Who takes the next step (R62, 70_reset_and_hazards.md R234): the agent `turns` names; once
`turns` is used up, the core while BUSY = 1 and the host otherwise, so that the core is never
starved. -/
def nextAgent (s : State) : Agent :=
  match s.turns with
  | a :: _ => a
  | [] => if s.busy = true then .core else .host

/-- The state with this step's turn used up. -/
def popTurn (s : State) : State := { s with turns := s.turns.tail }

/-- The state with the host's remaining operations replaced. -/
def setPending (ops : List HostOp) (s : State) : State := { s with pending := ops }

/-- The refusal of a request the decoder takes for no transaction (40_host_interface.md R108,
20_memory.md R57). -/
def decodeRefusal : DecodeError → Refusal
  | .outOfWindow => .unalignedOrOutOfWindowOffset
  | .notWordAccess => .notWordAccess

/-- The block takes one request: it is decoded (30_encoding.md R70) and run, in one atomic step
(20_memory.md R59). -/
def takeRequest (r : Request) (s : State) : Answer :=
  match decode r with
  | .ok i => exec i s
  | .error e => .refused (decodeRefusal e)

/-- One poll of `wait` (30_encoding.md R81): a read of STATUS, repeated at a later turn of the host
as long as bit 0 of the value read is 1. -/
def pollStatus (s : State) : Answer :=
  if (statusWord s).getLsbD 0 = true then
    takeRequest (readReq offStatus) (setPending (.wait :: s.pending) s)
  else takeRequest (readReq offStatus) s

/-- One operation of the host (40_host_interface.md R90). -/
def hostOperation (op : HostOp) (s : State) : Answer :=
  match op with
  | .request r => takeRequest r s
  | .reset => .next (resetBlock s)
  | .wait => pollStatus s

/-- The host's turn: its next operation; with none to issue, nothing happens, and the block keeps
all of its state (60_exceptions.md R207). -/
def hostTurn (s : State) : Answer :=
  match s.pending with
  | [] => .next s
  | op :: rest => hostOperation op (setPending rest s)

end Sys2Proof.Machine
end

