-- ==== Sys2Proof/Machine/Step.lean ====
section
/-! DEFINITION. One step of the machine: one host operation or one core step, whoever's turn it is
(20_memory.md R62). The block fetches nothing (10_state.md R32), so the place the next instruction
is taken from is the host's next operation. -/

namespace Sys2Proof.Machine

/-- One step of the machine. -/
def step (s : State) : Host.Outcome State Fault Refusal :=
  match nextAgent s with
  | .core => .next (coreTurn (popTurn s))
  | .host => hostTurn (popTurn s)

/-- The state in which the host's next operation is the instruction of an opcode table word and the
next turn is the host's (notes/assumptions/12.md, 13.md). -/
def State.withFetchWord (s : State) (nbits w : Nat) : State :=
  { s with
    pending := .request (tableRequest nbits w) :: s.pending
    turns := .host :: s.turns }

end Sys2Proof.Machine
end

