-- ==== Sys2Proof/Machine/HostSyntax.lean ====
section
/-! DEFINITION. The host notation of 30_encoding.md R80 and the pseudo-instructions of R81, each as
the host operations it expands to. -/

namespace Sys2Proof.Machine

/-- The register names of the notation (30_encoding.md R80). -/
inductive HostReg where
  | cmd
  | status
  | key (j : Fin 4)
  | ctr (j : Fin 4)
  | inp (j : Fin 4)
  | out (j : Fin 4)
  | raw (off : Nat)
deriving DecidableEq, Repr

/-- `offset(REG)` (R80, by the register map of 20_memory.md R52). -/
def regOffset : HostReg → Nat
  | .cmd => offCmd
  | .status => offStatus
  | .key j => offWord baseKey j
  | .ctr j => offWord baseCtr j
  | .inp j => offWord baseIn j
  | .out j => offWord baseOut j
  | .raw off => off

/-- `rd REG` (R80). -/
def hostRd (r : HostReg) : HostOp := .request (readReq (regOffset r))

/-- `wr REG, imm32` (R80). -/
def hostWr (r : HostReg) (d : Word) : HostOp := .request (writeReq (regOffset r) d)

/-- `perm.fwd` (R81). -/
def hostPermFwd : List HostOp := [hostWr .cmd 0x00000001#32]

/-- `perm.inv` (R81). -/
def hostPermInv : List HostOp := [hostWr .cmd 0x00000002#32]

/-- `ctr.xor n` (R81): `wr CMD, 0x00000003 + (n << 4)`, meant for n in 1..16. -/
def hostCtrXor (n : Nat) : List HostOp := [hostWr .cmd (BitVec.ofNat 32 (3 + n <<< 4))]

/-- The four writes that store the words of a window. -/
def hostStore (reg : Fin 4 → HostReg) (q : Quad) : List HostOp :=
  [hostWr (reg 0) q.w0, hostWr (reg 1) q.w1, hostWr (reg 2) q.w2, hostWr (reg 3) q.w3]

/-- `ldkey B[0..15]` (R81). -/
def hostLdkey (b : Bytes16) : List HostOp := hostStore .key (wordsOf b)

/-- `ldctr c` (R81): `wr CTRj, bswap32(c[127-32j:96-32j])` for j = 0, 1, 2, 3. -/
def hostLdctr (c : BitVec 128) : List HostOp :=
  hostStore .ctr ⟨bswap32 (c.extractLsb' 96 32), bswap32 (c.extractLsb' 64 32),
    bswap32 (c.extractLsb' 32 32), bswap32 (c.extractLsb' 0 32)⟩

/-- Fewer than 16 bytes, the missing ones taken as 0x00 (R81). -/
def padBytes (l : List Byte) : Bytes16 := fun i => l.getD i.val 0#8

/-- `ldin B[0..15]` (R81). -/
def hostLdin (l : List Byte) : List HostOp := hostStore .inp (wordsOf (padBytes l))

/-- `rdout` (R81). -/
def hostRdout : List HostOp := [hostRd (.out 0), hostRd (.out 1), hostRd (.out 2), hostRd (.out 3)]

end Sys2Proof.Machine
end

