-- ==== Sys2Proof/Machine/Stream.lean ====
section
/-! DEFINITION. The host procedure CTR_STREAM (42_ctr_engine.md R168), which is the source's
`ctr_apply`, run on the machine through its bus. -/

namespace Sys2Proof.Machine

/-- `wait` in a procedure: the core takes the steps its command still needs (at most 17,
70_reset_and_hazards.md R233), and a poll of STATUS sees BUSY = 0. The polls before that one change
nothing (20_memory.md R60) and are left out, as in 95_test_vectors.md section 7. -/
def waitDone (s : State) : Answer := pollStatus (coreTurns Config.coreSteps s)

/-- The host's operations one after the other, the core moving only at a `wait`. -/
def runHost : List HostOp → State → Answer
  | [], s => .next s
  | op :: ops, s =>
    match (match op with
      | .wait => waitDone s
      | .request r => takeRequest r s
      | .reset => .next (resetBlock s)) with
    | .next t => runHost ops t
    | .fault r => .fault r
    | .refused r => .refused r

/-- The 16 bytes that `rdout` has just returned: the last four values read. -/
def lastRead (s : State) : Bytes16 :=
  bytesOf ⟨s.reads.getD 3 0#32, s.reads.getD 2 0#32, s.reads.getD 1 0#32, s.reads.getD 0 0#32⟩

/-- The first `n` bytes of a 16-byte quantity. -/
def takeBytes (n : Nat) (b : Bytes16) : List Byte := (List.ofFn b).take n

/-- One turn of CTR_STREAM's loop on at most 16 bytes (R168): load them, `ctr.xor n`, `wait`, require
STATUS.ERR = 0, and read the first n bytes of OUT. No answer where the requirement fails. -/
def streamBlock (chunk : List Byte) (s : State) : Option (List Byte × State) :=
  match runHost (hostLdin chunk ++ hostCtrXor chunk.length ++ [.wait]) s with
  | .next s1 =>
    if s1.err = .none then
      match runHost hostRdout s1 with
      | .next s2 => some (takeBytes chunk.length (lastRead s2), s2)
      | .fault _ => none
      | .refused _ => none
    else none
  | .fault _ => none
  | .refused _ => none

/-- CTR_STREAM over data already cut into blocks. -/
def streamBlocks : List (List Byte) → State → Option (List Byte × State)
  | [], s => some ([], s)
  | c :: cs, s =>
    match streamBlock c s with
    | none => none
    | some (o, s1) =>
      match streamBlocks cs s1 with
      | none => none
      | some (os, s2) => some (o ++ os, s2)

/-- The data in blocks of 16 bytes, the last one shorter (`n <- min(16, N - p)`, R168); `fuel` bounds
the number of blocks. -/
def cutBlocks : Nat → List Byte → List (List Byte)
  | 0, _ => []
  | _ + 1, [] => []
  | fuel + 1, b :: bs =>
    (b :: bs).take Config.blockBytes :: cutBlocks fuel ((b :: bs).drop Config.blockBytes)

/-- CTR_STREAM(D) on a block whose key and counter are loaded (R168): the output and the state it
leaves. -/
def ctrStream (data : List Byte) (s : State) : Option (List Byte × State) :=
  streamBlocks (cutBlocks data.length data) s

end Sys2Proof.Machine
end

