-- ==== Sys2Proof/Safety.lean ====
section
/-! DEFINITION. The terms claims about runs are made in: the invariant of the block, the part of the
state a host can tell apart, and who moves next with what. -/

namespace Sys2Proof.Machine

/-- What holds while a command runs: a full key (10_state.md R31, 40_host_interface.md R103), DONE
clear, no error but a dropped write (60_exceptions.md R197), for CTR_XOR a full counter and a legal
length, for the permutations LENL = 0 (R104), and V after RC rounds of the whitened input block
(R104, 41_permutation.md R136). -/
abbrev RunningInv (s : State) : Prop :=
  keyValid s = true ∧ s.done = false ∧ (s.err = .none ∨ s.err = .busy) ∧
  (s.opl = .ctrXor → ctrValid s = true ∧ legalLen s.lenl = true) ∧
  (s.opl ≠ .ctrXor → s.lenl = 0#5) ∧
  s.v = roundsDir (opDirection s.opl) s.rc.val (xorQuad (inputBlock s.opl s) s.key)

/-- What holds once a command has committed and no later one was presented (10_state.md R28 to R30):
the key is full and ERR is 0, or 5 after a dropped write. -/
abbrev DoneInv (s : State) : Prop := keyValid s = true ∧ (s.err = .none ∨ s.err = .busy)

/-- A word of a window whose write mask bit is clear still holds its reset value 0 (10_state.md R33,
R38). -/
abbrev UnwrittenZero (mask : BitVec 4) (q : Quad) : Prop :=
  ∀ j : Fin 4, mask.getLsbD j.val = false → wordAt q j = 0#32

/-- The invariant of the block. -/
abbrev BlockInv (s : State) : Prop :=
  (s.busy = true → RunningInv s) ∧ (s.done = true → DoneInv s) ∧
  UnwrittenZero s.keyWr s.key ∧ UnwrittenZero s.ctrWr s.ctr ∧
  (keyValid s = false → s.out = zeroQuad)

/-- Two states a host cannot tell apart (10_state.md R34 to R36, 70_reset_and_hazards.md R221): they
agree on every field but the hidden registers V, RC, OPL and LENL, which must agree only while a
command runs, and on the model's count of free values, which may differ. -/
abbrev SameToHost (s t : State) : Prop :=
  s.key = t.key ∧ s.ctr = t.ctr ∧ s.inp = t.inp ∧ s.out = t.out ∧
  s.busy = t.busy ∧ s.done = t.done ∧ s.err = t.err ∧ s.keyWr = t.keyWr ∧ s.ctrWr = t.ctrWr ∧
  s.pending = t.pending ∧ s.turns = t.turns ∧ s.reads = t.reads ∧
  (s.busy = true → s.v = t.v ∧ s.rc = t.rc ∧ s.opl = t.opl ∧ s.lenl = t.lenl)

/-- Two states that differ in nothing but the key words and V: what a host that knows no key sees of
them is the same (10_state.md R22, 60_exceptions.md R206). -/
abbrev SameButKey (s t : State) : Prop :=
  s.ctr = t.ctr ∧ s.inp = t.inp ∧ s.out = t.out ∧
  s.busy = t.busy ∧ s.done = t.done ∧ s.err = t.err ∧ s.keyWr = t.keyWr ∧ s.ctrWr = t.ctrWr ∧
  s.pending = t.pending ∧ s.turns = t.turns ∧ s.reads = t.reads ∧
  s.rc = t.rc ∧ s.opl = t.opl ∧ s.lenl = t.lenl ∧ s.freeCount = t.freeCount

/-- The next step is a commit (41_permutation.md R137, 42_ctr_engine.md R165). -/
abbrev CommitsNext (s : State) : Prop := nextAgent s = .core ∧ s.busy = true ∧ s.rc.val = 16

/-- The next step is the host's turn with the operation `op`. -/
abbrev HostDoes (s : State) (op : HostOp) : Prop :=
  nextAgent s = .host ∧ s.pending.head? = some op

/-- The next step is the host's turn and takes the instruction `i`. -/
abbrev HostTakes (s : State) (i : Instr) : Prop := ∃ r, HostDoes s (.request r) ∧ decode r = .ok i

/-- An instruction that presents the command word `w` to CMD: the word itself, or the bus write of
it (30_encoding.md R70, R81). -/
abbrev PresentsWord (i : Instr) (w : Word) : Prop := i = .wrCmd w ∨ i = decodeCmdWord w

/-- Two answers of the machine that are related as the states are, or stop alike. -/
def Answer.Related (rel : State → State → Prop) : Answer → Answer → Prop
  | .next s, .next t => rel s t
  | .refused r, .refused r' => r = r'
  | _, _ => False

end Sys2Proof.Machine
end

