-- ==== Sys2Proof/Certificates/Slice0/Obligations.lean ====
section
/-! DEFINITION. The statements for the provers. Each docstring names the rules of spec/ it states. A
conclusion `= .next t` gives the whole next state, so what it does not name is unchanged. -/

open Sys2Proof Sys2Proof.Machine

/-! ## Reset and the invariant -/

/-- The state right after reset (10_state.md R38), but for V, RC, OPL and LENL, which that rule
leaves unspecified. -/
def Obligations.ResetStateIsAsSpecified : Prop :=
  (∀ j, wordAt State.reset.key j = 0#32) ∧ (∀ j, wordAt State.reset.ctr j = 0#32) ∧
  (∀ j, wordAt State.reset.inp j = 0#32) ∧ (∀ j, wordAt State.reset.out j = 0#32) ∧
  counterValue State.reset.ctr = 0#128 ∧
  State.reset.busy = false ∧ State.reset.done = false ∧ State.reset.err = .none ∧
  State.reset.keyWr = 0b0000#4 ∧ State.reset.ctrWr = 0b0000#4 ∧
  keyValid State.reset = false ∧ ctrValid State.reset = false ∧
  statusWord State.reset = 0x00000000#32

/-- The host's reset (70_reset_and_hazards.md R220, 40_host_interface.md R106), from every state, a
running command included: no OUT write, no counter increment. -/
def Obligations.ResetClearsTheBlock : Prop :=
  ∀ (s : State) (rest : List HostOp), nextAgent s = .host → s.pending = .reset :: rest →
    ∃ t, step s = .next t ∧
      (∀ j, wordAt t.key j = 0#32 ∧ wordAt t.ctr j = 0#32 ∧ wordAt t.inp j = 0#32 ∧
        wordAt t.out j = 0#32) ∧
      t.keyWr = 0b0000#4 ∧ t.ctrWr = 0b0000#4 ∧
      t.busy = false ∧ t.done = false ∧ t.err = .none ∧ statusWord t = 0x00000000#32 ∧
      t.pending = rest ∧ t.reads = s.reads

/-- The invariant holds at reset. It speaks of V and of OPL only while BUSY = 1, so no value the
model chose for them at reset matters. -/
def Obligations.InvariantHoldsAtReset : Prop := BlockInv State.reset

/-- Every step from every state that meets the invariant gives a state that meets it: whatever the
host does and however the agents are interleaved, V is RC rounds into the permutation of the input
block, the key is full while a command runs, and unwritten words are 0. -/
def Obligations.StepKeepsInvariant : Prop :=
  ∀ s t : State, BlockInv s → step s = .next t → BlockInv t

/-! ## Encodings -/

/-- Decoding the encoding of a well-formed instruction gives it back, for every operand. -/
def Obligations.DecodeOfEncode : Prop :=
  ∀ i : Instr, i.wellFormed = true → decode (encode i) = .ok i

/-- What decodes is well-formed and encodes back to the request it came from: no two requests have
one reading, and no bit of a request is dropped. -/
def Obligations.EncodeOfDecode : Prop :=
  ∀ (r : Request) (i : Instr), decode r = .ok i → i.wellFormed = true ∧ encode i = r

/-- Words written out from the encoding tables (30_encoding.md R72, R74, R82) decode to the
instructions they stand for. -/
def Obligations.SpecWordsDecode : Prop :=
  decodeTableWord 32 0x00000001 = some .permFwd ∧
  decodeTableWord 32 0x00000002 = some .permInv ∧
  decodeTableWord 32 0x00000103 = some (.ctrXor 16#5) ∧
  decodeTableWord 32 0x00000200 = some (.cmdIllegal 0x00000200#32) ∧
  decodeTableWord 16 0x004 = some .rdStatus ∧
  decodeTableWord 16 0x100 = some (.wrCmd 0#32) ∧
  decodeTableWord 16 0x11C = some (.wrKey 3 0#32) ∧
  decodeTableWord 16 0x02C = some (.rdCtr 3) ∧
  decodeTableWord 16 0x144 = some (.wrOut 1 0#32) ∧
  decodeTableWord 16 0x0FC = some (.rdReserved80 31) ∧
  decodeTableWord 16 0x001 = some (.refusedUnaligned1 0 none)

/-- What every command word decodes to (30_encoding.md R77), by the values of its fields: there are
exactly 18 legal words, 1, 2, and 3 + 16n for n in 1..16, and every other word rejects with
ILLEGAL_COMMAND or, where only its LEN is wrong for CTR_XOR, INVALID_LENGTH. -/
def Obligations.DecodeOfCommandWords : Prop :=
  ∀ w : Word,
    let op := w.toNat % 16
    let len := w.toNat / 16 % 32
    let rsv := w.toNat / 512
    (∀ c : Command, decodeCommand w = .ok c ↔
      (w.toNat = 1 ∧ c = .permFwd) ∨ (w.toNat = 2 ∧ c = .permInv) ∨
      (∃ n : BitVec 5, 1 ≤ n.toNat ∧ n.toNat ≤ 16 ∧ w.toNat = 3 + 16 * n.toNat ∧ c = .ctrXor n)) ∧
    (decodeCommand w = .error .illegalCommand ↔
      rsv ≠ 0 ∨ op = 0 ∨ 4 ≤ op ∨ ((op = 1 ∨ op = 2) ∧ len ≠ 0)) ∧
    (decodeCommand w = .error .invalidLength ↔ rsv = 0 ∧ op = 3 ∧ (len = 0 ∨ 17 ≤ len)) ∧
    (∀ code, decodeCommand w = .error code → code = .illegalCommand ∨ code = .invalidLength)

/-! ## A step runs the decoded instruction -/

/-- At the host's turn, with a request next that decodes to `i`, the step is `exec i`, at the state
with that request and this turn used up. -/
def Obligations.StepRunsDecodedInstruction : Prop :=
  ∀ (s : State) (r : Request) (rest : List HostOp) (i : Instr),
    nextAgent s = .host → s.pending = .request r :: rest → decode r = .ok i →
      step s = exec i { s with pending := rest, turns := s.turns.tail }

/-- A word of the opcode table placed as the host's next operation is what the next step runs, at
the very state it was placed in (the model's convention for placing it: notes/assumptions/12.md,
13.md). -/
def Obligations.PlacedWordRunsNext : Prop :=
  ∀ (s : State) (nbits w : Nat) (i : Instr),
    decodeTableWord nbits w = some i → step (s.withFetchWord nbits w) = exec i s

/-- Which requests are transactions of the block: an aligned 32-bit request inside the window
completes (40_host_interface.md R90), and so does a command word, which is a request of its own in
the model (notes/assumptions/6.md); an unaligned or out-of-window offset is refused by its name
(40_host_interface.md R108), and another width is refused too (20_memory.md R57,
93_implementation_defined.md U13). That the width has a refusal of its own name, and that a refusal
stops the run, is the model's choice (notes/assumptions/8.md). -/
def Obligations.OnlyTransactionsAreTaken : Prop :=
  ∀ (s : State) (b : BusRequest) (w : Word),
    (b.width = 32 → b.off % 4 = 0 → b.off ≤ 0xFC → ∃ t, takeRequest (.bus b) s = .next t) ∧
    (b.width = 32 → (b.off % 4 ≠ 0 ∨ 0xFC < b.off) →
      takeRequest (.bus b) s = .refused .unalignedOrOutOfWindowOffset) ∧
    (b.width ≠ 32 → takeRequest (.bus b) s = .refused .notWordAccess) ∧
    (∃ t, takeRequest (.cmd w) s = .next t)

/-- The three rows of the table that are no transaction are refused in every state, read or write
(40_host_interface.md R108). -/
def Obligations.UnalignedRowsAreRefused : Prop :=
  ∀ (s : State) (h : Fin 64) (wd : Option Word),
    exec (.refusedUnaligned1 h wd) s = .refused .unalignedOrOutOfWindowOffset ∧
    exec (.refusedUnaligned2 h wd) s = .refused .unalignedOrOutOfWindowOffset ∧
    exec (.refusedUnaligned3 h wd) s = .refused .unalignedOrOutOfWindowOffset

/-! ## Reads -/

/-- RD.CMD, RD.KEY[j] and RD.reserved return 0x00000000 and change nothing, in every state
(40_host_interface.md R92, R94, R98). -/
def Obligations.ReadsThatReturnZero : Prop :=
  ∀ (s : State) (j : Fin 4) (k2 : Fin 2) (k4 : Fin 4) (k8 : Fin 8) (k32 : Fin 32),
    let t : State := { s with reads := 0x00000000#32 :: s.reads }
    exec .rdCmd s = .next t ∧ exec (.rdKey j) s = .next t ∧
    exec (.rdReserved08 k2) s = .next t ∧ exec (.rdReserved50 k4) s = .next t ∧
    exec (.rdReserved60 k8) s = .next t ∧ exec (.rdReserved80 k32) s = .next t

/-- RD.CTR[j], RD.IN[j] and RD.OUT[j] return the register and change nothing, busy or not
(40_host_interface.md R95, R96, R97). -/
def Obligations.ReadsOfWindows : Prop :=
  ∀ (s : State) (j : Fin 4),
    exec (.rdCtr j) s = .next { s with reads := wordAt s.ctr j :: s.reads } ∧
    exec (.rdIn j) s = .next { s with reads := wordAt s.inp j :: s.reads } ∧
    exec (.rdOut j) s = .next { s with reads := wordAt s.out j :: s.reads }

/-- RD.STATUS returns BUSY | DONE<<1 | ERR<<4 | KEY_VALID<<8 | CTR_VALID<<9, every other bit 0, with
the error codes of R30 and the valid bits of R31, and changes nothing (10_state.md R28, R30, R31,
40_host_interface.md R93). -/
def Obligations.ReadOfStatus : Prop :=
  ∀ s : State, ∃ x : Word,
    exec .rdStatus s = .next { s with reads := x :: s.reads } ∧
    x.toNat = s.busy.toNat + 2 * s.done.toNat +
      16 * (match s.err with
        | .none => 0
        | .illegalCommand => 1
        | .invalidLength => 2
        | .missingKey => 3
        | .missingCounterState => 4
        | .busy => 5) +
      256 * (decide (s.keyWr = 0b1111#4)).toNat + 512 * (decide (s.ctrWr = 0b1111#4)).toNat

/-! ## Writes -/

/-- WR.KEY[j] (40_host_interface.md R100): the word and its mask bit, nothing else; KEY_VALID once
all four bits are set; dropped with ERR = 5 while BUSY = 1. -/
def Obligations.KeyWrite : Prop :=
  ∀ (s : State) (j : Fin 4) (d : Word),
    (s.busy = true → exec (.wrKey j d) s = .next { s with err := .busy }) ∧
    (s.busy = false → ∃ (q : Quad) (m : BitVec 4),
      exec (.wrKey j d) s = .next { s with key := q, keyWr := m } ∧
      (∀ k, wordAt q k = if k = j then d else wordAt s.key k) ∧
      (∀ k : Fin 4, m.getLsbD k.val = if k = j then true else s.keyWr.getLsbD k.val) ∧
      (keyValid { s with key := q, keyWr := m } = true ↔ ∀ k : Fin 4, m.getLsbD k.val = true))

/-- WR.CTR[j] (40_host_interface.md R101), likewise for CTR. -/
def Obligations.CounterWrite : Prop :=
  ∀ (s : State) (j : Fin 4) (d : Word),
    (s.busy = true → exec (.wrCtr j d) s = .next { s with err := .busy }) ∧
    (s.busy = false → ∃ (q : Quad) (m : BitVec 4),
      exec (.wrCtr j d) s = .next { s with ctr := q, ctrWr := m } ∧
      (∀ k, wordAt q k = if k = j then d else wordAt s.ctr k) ∧
      (∀ k : Fin 4, m.getLsbD k.val = if k = j then true else s.ctrWr.getLsbD k.val) ∧
      (ctrValid { s with ctr := q, ctrWr := m } = true ↔ ∀ k : Fin 4, m.getLsbD k.val = true))

/-- WR.IN[j] (40_host_interface.md R102): the word, nothing else; dropped with ERR = 5 while
BUSY = 1. -/
def Obligations.InputWrite : Prop :=
  ∀ (s : State) (j : Fin 4) (d : Word),
    (s.busy = true → exec (.wrIn j d) s = .next { s with err := .busy }) ∧
    (s.busy = false → ∃ q : Quad,
      exec (.wrIn j d) s = .next { s with inp := q } ∧
      (∀ k, wordAt q k = if k = j then d else wordAt s.inp k))

/-- WR.STATUS, WR.OUT[j] and WR.reserved change nothing, busy or not (40_host_interface.md R105). -/
def Obligations.IgnoredWrites : Prop :=
  ∀ (s : State) (d : Word) (j : Fin 4) (k2 : Fin 2) (k4 : Fin 4) (k8 : Fin 8) (k32 : Fin 32),
    exec (.wrStatus d) s = .next s ∧ exec (.wrOut j d) s = .next s ∧
    exec (.wrReserved08 k2 d) s = .next s ∧ exec (.wrReserved50 k4 d) s = .next s ∧
    exec (.wrReserved60 k8 d) s = .next s ∧ exec (.wrReserved80 k32 d) s = .next s

/-- The busy rule over the whole window (40_host_interface.md R99): while BUSY = 1 a write to CMD,
KEY, CTR or IN sets ERR = 5 and nothing else, and a write anywhere else changes nothing; while
BUSY = 0 a write has the effect of the register its offset names. -/
def Obligations.BusyRuleOverTheWindow : Prop :=
  ∀ (s : State) (off : Nat) (d : Word), off % 4 = 0 → off ≤ 0xFC →
    (s.busy = true →
      takeRequest (writeReq off d) s =
        .next (if off = 0x00 ∨ (0x10 ≤ off ∧ off ≤ 0x3C) then { s with err := .busy } else s)) ∧
    (s.busy = false →
      (off = 0x00 → takeRequest (writeReq off d) s = exec (.wrCmd d) s) ∧
      (∀ j : Fin 4, off = 0x10 + 4 * j.val → takeRequest (writeReq off d) s = exec (.wrKey j d) s) ∧
      (∀ j : Fin 4, off = 0x20 + 4 * j.val → takeRequest (writeReq off d) s = exec (.wrCtr j d) s) ∧
      (∀ j : Fin 4, off = 0x30 + 4 * j.val → takeRequest (writeReq off d) s = exec (.wrIn j d) s) ∧
      ((0x04 ≤ off ∧ off ≤ 0x0C) ∨ 0x40 ≤ off → takeRequest (writeReq off d) s = .next s))

/-- Repeating a write to KEY, CTR or IN with the same value leaves the same state (20_memory.md
R60). -/
def Obligations.WindowWritesAreIdempotent : Prop :=
  ∀ (s t : State) (j : Fin 4) (d : Word) (i : Instr),
    i = .wrKey j d ∨ i = .wrCtr j d ∨ i = .wrIn j d →
      exec i s = .next t → exec i t = .next t

/-! ## Commands -/

/-- WR.CMD (40_host_interface.md R103, R104, 60_exceptions.md R196, R198): the busy rule, then the
decode's own code, then MISSING_KEY, then MISSING_COUNTER_STATE, each reject setting ERR and clearing
DONE and nothing else; a command that passes is accepted, with V = input block ^ KEY, RC = 0,
BUSY = 1, DONE = 0, ERR = 0. -/
def Obligations.CommandWrite : Prop :=
  ∀ (s : State) (d : Word),
    (s.busy = true → exec (.wrCmd d) s = .next { s with err := .busy }) ∧
    (s.busy = false → ∀ code, decodeCommand d = .error code →
      exec (.wrCmd d) s = .next { s with err := code, done := false }) ∧
    (s.busy = false → ∀ c, decodeCommand d = .ok c →
      (s.keyWr ≠ 0b1111#4 →
        exec (.wrCmd d) s = .next { s with err := .missingKey, done := false }) ∧
      (s.keyWr = 0b1111#4 → commandOp c = .ctrXor → s.ctrWr ≠ 0b1111#4 →
        exec (.wrCmd d) s = .next { s with err := .missingCounterState, done := false }) ∧
      (s.keyWr = 0b1111#4 → (commandOp c = .ctrXor → s.ctrWr = 0b1111#4) →
        ∃ v : Quad,
          (∀ j, wordAt v j =
            (if commandOp c = .ctrXor then wordAt s.ctr j else wordAt s.inp j) ^^^
              wordAt s.key j) ∧
          exec (.wrCmd d) s = .next { s with
            opl := commandOp c, lenl := commandLen c, v := v, rc := 0,
            busy := true, done := false, err := .none }))

/-- PERM_FWD and PERM_INV as command words (41_permutation.md R134, R135 through
40_host_interface.md R104): with BUSY = 0 and a full key they are accepted, whatever the counter
mask; with BUSY = 1 dropped; without a full key rejected with MISSING_KEY. -/
def Obligations.PermutationCommands : Prop :=
  ∀ (s : State),
    (s.busy = false → s.keyWr = 0b1111#4 →
      exec .permFwd s = .next { s with
        opl := .permFwd, lenl := 0#5, v := xorQuad s.inp s.key, rc := 0,
        busy := true, done := false, err := .none } ∧
      exec .permInv s = .next { s with
        opl := .permInv, lenl := 0#5, v := xorQuad s.inp s.key, rc := 0,
        busy := true, done := false, err := .none }) ∧
    (s.busy = false → s.keyWr ≠ 0b1111#4 →
      exec .permFwd s = .next { s with err := .missingKey, done := false } ∧
      exec .permInv s = .next { s with err := .missingKey, done := false }) ∧
    (s.busy = true →
      exec .permFwd s = .next { s with err := .busy } ∧
      exec .permInv s = .next { s with err := .busy })

/-- CTR_XOR n as a command word (42_ctr_engine.md R163, R164 through 40_host_interface.md R104,
60_exceptions.md R193, R194): accepted with BUSY = 0, n in 1..16 and both masks full; else dropped,
or rejected with INVALID_LENGTH, MISSING_KEY or MISSING_COUNTER_STATE, in that order. -/
def Obligations.CounterModeCommand : Prop :=
  ∀ (s : State) (n : BitVec 5),
    (s.busy = true → exec (.ctrXor n) s = .next { s with err := .busy }) ∧
    (s.busy = false → (n.toNat = 0 ∨ 17 ≤ n.toNat) →
      exec (.ctrXor n) s = .next { s with err := .invalidLength, done := false }) ∧
    (s.busy = false → 1 ≤ n.toNat → n.toNat ≤ 16 →
      (s.keyWr ≠ 0b1111#4 →
        exec (.ctrXor n) s = .next { s with err := .missingKey, done := false }) ∧
      (s.keyWr = 0b1111#4 → s.ctrWr ≠ 0b1111#4 →
        exec (.ctrXor n) s = .next { s with err := .missingCounterState, done := false }) ∧
      (s.keyWr = 0b1111#4 → s.ctrWr = 0b1111#4 →
        exec (.ctrXor n) s = .next { s with
          opl := .ctrXor, lenl := n, v := xorQuad s.ctr s.key, rc := 0,
          busy := true, done := false, err := .none }))

/-- CMD.ILLEGAL (60_exceptions.md R192, R196): with BUSY = 0 the reject with ILLEGAL_COMMAND is its
effect; with BUSY = 1 it is dropped. -/
def Obligations.IllegalCommandRejects : Prop :=
  ∀ (s : State) (w : Word), (Instr.cmdIllegal w).wellFormed = true →
    (s.busy = false → exec (.cmdIllegal w) s = .next { s with err := .illegalCommand, done := false }) ∧
    (s.busy = true → exec (.cmdIllegal w) s = .next { s with err := .busy })

/-- A command word does what the bus write of it to CMD does (30_encoding.md R70, R81), for every
word and in every state. -/
def Obligations.CommandWordIsWriteToCmd : Prop :=
  ∀ (w : Word) (s : State), exec (decodeCmdWord w) s = exec (.wrCmd w) s

/-- No instruction touches what the host has still to do, the turns or the free values' count, and
none changes V, RC, OPL or LENL but by an accepted command. -/
def Obligations.InstructionFrame : Prop :=
  ∀ (i : Instr) (s t : State), exec i s = .next t →
    t.pending = s.pending ∧ t.turns = s.turns ∧ t.freeCount = s.freeCount ∧ t.out = s.out ∧
    ((t.v = s.v ∧ t.rc = s.rc ∧ t.opl = s.opl ∧ t.lenl = s.lenl ∧ t.busy = s.busy) ∨
     (s.busy = false ∧ t.busy = true ∧ ∃ w, PresentsWord i w))

/-! ## The core's steps -/

/-- The core's round step (41_permutation.md R136): V and RC, nothing else but the turn. -/
def Obligations.CoreRoundStep : Prop :=
  ∀ s : State, nextAgent s = .core → s.busy = true → s.rc.val < 16 →
    ∃ rc : Fin 17, rc.val = s.rc.val + 1 ∧
      step s = .next { s with
        v := if s.opl = .permInv then roundInv s.v else roundFwd s.v, rc := rc,
        turns := s.turns.tail }

/-- The core's commit step of PERM_FWD and PERM_INV (41_permutation.md R137): OUT, BUSY and DONE; ERR
and all else a host can see is left as it is. -/
def Obligations.CorePermutationCommit : Prop :=
  ∀ s : State, nextAgent s = .core → s.busy = true → s.rc.val = 16 → s.opl ≠ .ctrXor →
    ∃ t, step s = .next t ∧
      (∀ j, wordAt t.out j = wordAt s.v j ^^^ wordAt s.key j) ∧
      t.busy = false ∧ t.done = true ∧ t.err = s.err ∧
      t.key = s.key ∧ t.ctr = s.ctr ∧ t.inp = s.inp ∧ t.keyWr = s.keyWr ∧ t.ctrWr = s.ctrWr ∧
      t.pending = s.pending ∧ t.turns = s.turns.tail ∧ t.reads = s.reads

/-- The core's commit step of CTR_XOR (42_ctr_engine.md R165, R166, R160): byte i of OUT is data XOR
keystream below LENL and 0 from there on, the counter advances by 1 modulo 2^128, and ERR and all
else a host can see is left as it is. -/
def Obligations.CoreCounterCommit : Prop :=
  ∀ s : State, nextAgent s = .core → s.busy = true → s.rc.val = 16 → s.opl = .ctrXor →
    ∃ t, step s = .next t ∧
      (∀ i : Fin 16, bytesOf t.out i =
        if i.val < s.lenl.toNat then bytesOf s.inp i ^^^ bytesOf (xorQuad s.v s.key) i else 0#8) ∧
      (be128 (bytesOf t.ctr)).toNat = ((be128 (bytesOf s.ctr)).toNat + 1) % 2 ^ 128 ∧
      t.busy = false ∧ t.done = true ∧ t.err = s.err ∧
      t.key = s.key ∧ t.inp = s.inp ∧ t.keyWr = s.keyWr ∧ t.ctrWr = s.ctrWr ∧
      t.pending = s.pending ∧ t.turns = s.turns.tail ∧ t.reads = s.reads

/-- What the model does at a core's turn on an idle block. The spec says only that a core step
happens while BUSY = 1 (20_memory.md R62) and that an idle block keeps its state (60_exceptions.md
R207); that such a turn can be taken, and uses up the turn and nothing else, is the model's choice
(notes/assumptions/20.md). -/
def Obligations.IdleCoreDoesNothing : Prop :=
  ∀ s : State, nextAgent s = .core → s.busy = false →
    step s = .next { s with turns := s.turns.tail }

/-- Every accepted command takes exactly 17 core steps (70_reset_and_hazards.md R233): after the
accepting write the block is busy until the 17th. That the 17 steps after the accept are the core's
is the model's choice, not the spec's: with no turns listed the core moves while BUSY = 1
(notes/assumptions/4.md), which `turns = []` calls on. -/
def Obligations.SeventeenCoreSteps : Prop :=
  ∀ (s t : State) (w : Word), s.busy = false → s.turns = [] →
    exec (.wrCmd w) s = .next t → t.busy = true →
      (∀ n < 17, ∃ u, Host.Core.run Sys2Proof.core n t = .next u ∧ u.busy = true ∧ u.out = s.out) ∧
      ∃ u, Host.Core.run Sys2Proof.core 17 t = .next u ∧ u.busy = false ∧ u.done = true

/-- While BUSY = 1 no instruction changes anything but ERR, which a dropped write sets to 5, and the
values the host has read (40_host_interface.md R99, R107, 60_exceptions.md R197). The host's reset is
no instruction; for the host's whole turn see HostTurnWhileBusy. -/
def Obligations.NoInstructionDisturbsTheCore : Prop :=
  ∀ (i : Instr) (s t : State), s.busy = true → exec i s = .next t →
    t = { s with err := t.err, reads := t.reads } ∧
    (t.err = s.err ∨ t.err = .busy) ∧ (t.reads = s.reads ∨ ∃ x, t.reads = x :: s.reads)

/-! ## The permutation -/

/-- ADD32 and SUB32 are the sum and the difference modulo 2^32, and SUB32 undoes ADD32
(41_permutation.md R120, R121). -/
def Obligations.AddSubModulo : Prop :=
  ∀ a b : Word, (add32 a b).toNat = (a.toNat + b.toNat) % 2 ^ 32 ∧
    ((sub32 a b).toNat : Int) = ((a.toNat : Int) - b.toNat) % 2 ^ 32 ∧ sub32 (add32 a b) b = a

/-- The rotations by any amount undo each other, and a left rotation is the right rotation by the
rest of the width (41_permutation.md R123, R124). -/
def Obligations.RotationLaws : Prop :=
  ∀ (x : Word) (r : Nat),
    rotr32 (rotl32 x r) r = x ∧ rotl32 x (r % 32) = rotl32 x r ∧
    (r ≤ 32 → rotl32 x r = rotr32 x (32 - r)) ∧
    (∀ i < 32, (rotl32 x r).getLsbD ((i + r) % 32) = x.getLsbD i)

/-- The two rounds are inverse to each other on every state (41_permutation.md R128). -/
def Obligations.RoundsAreInverse : Prop :=
  ∀ q : Quad, roundInv (roundFwd q) = q ∧ roundFwd (roundInv q) = q

/-- The all-zero state is a fixed point of both rounds, the all-ones state is not
(41_permutation.md R129). -/
def Obligations.ZeroIsFixedPoint : Prop :=
  roundFwd zeroQuad = zeroQuad ∧ roundInv zeroQuad = zeroQuad ∧
  roundFwd ⟨0xFFFFFFFF#32, 0xFFFFFFFF#32, 0xFFFFFFFF#32, 0xFFFFFFFF#32⟩ =
    ⟨0xFFFF0000#32, 0xFFFFFF7F#32, 0xFFFFFFFF#32, 0xFFFF2000#32⟩

/-- PERMUTE under one key is a bijection on 16-byte blocks, each direction undoing the other
(41_permutation.md R133). -/
def Obligations.PermuteIsBijection : Prop :=
  ∀ k b : Bytes16,
    permute .inverse k (permute .forward k b) = b ∧ permute .forward k (permute .inverse k b) = b

/-- A block equal to the key is permuted to the key, in both directions (41_permutation.md R134,
R135, corner cases). -/
def Obligations.KeyAsBlockIsFixed : Prop :=
  ∀ (dir : Direction) (k : Bytes16), permute dir k k = k

/-- PERM_FWD and PERM_INV end to end (41_permutation.md R134, R135, R138): accepted from any idle
block with a full key and left to the core, they put PERMUTE of KEYB and INB in OUT, set DONE, and
leave KEY, CTR, IN and the masks. That the command is left to the core, so that it ends, is the
model's choice: with no turns listed the core moves while BUSY = 1 (notes/assumptions/4.md). -/
def Obligations.PermutationCommandsEndToEnd : Prop :=
  ∀ (s : State) (dir : Direction), s.busy = false → s.keyWr = 0b1111#4 → s.turns = [] →
    ∃ t u, exec (match dir with | .forward => .permFwd | .inverse => .permInv) s = .next t ∧
      Host.Core.run Sys2Proof.core 17 t = .next u ∧
      bytesOf u.out = permute dir (bytesOf s.key) (bytesOf s.inp) ∧
      u.busy = false ∧ u.done = true ∧ u.err = .none ∧
      u.key = s.key ∧ u.ctr = s.ctr ∧ u.inp = s.inp ∧ u.keyWr = s.keyWr ∧ u.ctrWr = s.ctrWr ∧
      u.pending = s.pending ∧ u.reads = s.reads

/-- However the command was interleaved with the host, what it commits is PERMUTE of the key and the
block (41_permutation.md R138), or the counter-mode output for it (42_ctr_engine.md R162, R163): at
the commit step of any state that meets the invariant. -/
def Obligations.CommitIsThePermutation : Prop :=
  ∀ s : State, BlockInv s → CommitsNext s → ∃ t, step s = .next t ∧
    (s.opl = .permFwd → bytesOf t.out = permute .forward (bytesOf s.key) (bytesOf s.inp)) ∧
    (s.opl = .permInv → bytesOf t.out = permute .inverse (bytesOf s.key) (bytesOf s.inp)) ∧
    (s.opl = .ctrXor → ∀ i : Fin 16, bytesOf t.out i =
      if i.val < s.lenl.toNat then
        bytesOf s.inp i ^^^ permute .forward (bytesOf s.key) (bytesOf s.ctr) i
      else 0#8)

/-! ## Byte orders, the counter and the keystream -/

/-- The packing of bytes into words and back (00_scope.md R14, 20_memory.md R56): each undoes the
other, and byte 4j+b is bits 8b+7 : 8b of word j. -/
def Obligations.PackingIsLittleEndian : Prop :=
  (∀ b : Bytes16, bytesOf (wordsOf b) = b) ∧ (∀ q : Quad, wordsOf (bytesOf q) = q) ∧
  (∀ (b : Bytes16) (j : Fin 4), (wordAt (wordsOf b) j).toNat =
    (b ⟨4 * j.val, by omega⟩).toNat + 2 ^ 8 * (b ⟨4 * j.val + 1, by omega⟩).toNat +
    2 ^ 16 * (b ⟨4 * j.val + 2, by omega⟩).toNat + 2 ^ 24 * (b ⟨4 * j.val + 3, by omega⟩).toNat)

/-- The integer view of CTR (10_state.md R24), in both directions, and BE128 as a sum over the bytes
(00_scope.md R14). -/
def Obligations.CounterIsBigEndian : Prop :=
  (∀ q : Quad, (counterValue q).toNat =
    (bswap32 q.w0).toNat * 2 ^ 96 + (bswap32 q.w1).toNat * 2 ^ 64 +
    (bswap32 q.w2).toNat * 2 ^ 32 + (bswap32 q.w3).toNat) ∧
  (∀ q : Quad, (counterValue q).toNat =
    ((List.finRange 16).map fun i => (bytesOf q i).toNat * 2 ^ (8 * (15 - i.val))).sum) ∧
  (∀ c : BitVec 128, counterValue (counterWords c) = c ∧
    counterWords c = ⟨bswap32 (c.extractLsb' 96 32), bswap32 (c.extractLsb' 64 32),
      bswap32 (c.extractLsb' 32 32), bswap32 (c.extractLsb' 0 32)⟩) ∧
  (∀ q : Quad, counterWords (counterValue q) = q)

/-- INC128 adds 1 modulo 2^128 (42_ctr_engine.md R160, R161), with the carries and the wrap of the
four rows of R161. -/
def Obligations.IncrementModulo : Prop :=
  (∀ q : Quad, (counterValue (inc128 q)).toNat = ((counterValue q).toNat + 1) % 2 ^ 128) ∧
  inc128 ⟨0#32, 0#32, 0#32, 0#32⟩ = ⟨0#32, 0#32, 0#32, 0x01000000#32⟩ ∧
  inc128 ⟨0#32, 0#32, 0#32, 0xFF000000#32⟩ = ⟨0#32, 0#32, 0#32, 0x00010000#32⟩ ∧
  inc128 ⟨0#32, 0#32, 0#32, 0xFFFFFFFF#32⟩ = ⟨0#32, 0#32, 0x01000000#32, 0#32⟩ ∧
  inc128 ⟨0xFFFFFFFF#32, 0xFFFFFFFF#32, 0xFFFFFFFF#32, 0xFFFFFFFF#32⟩ = ⟨0#32, 0#32, 0#32, 0#32⟩

/-- CTR_XOR n end to end (42_ctr_engine.md R163, R167): accepted from any idle block with key and
counter full and left to the core, it puts data XOR keystream in the first n bytes of OUT and 0 in
the rest, advances the counter by exactly 1, sets DONE, and leaves KEY, IN and the masks. That the
command is left to the core, so that it ends, is the model's choice: with no turns listed the core
moves while BUSY = 1 (notes/assumptions/4.md). -/
def Obligations.CounterModeEndToEnd : Prop :=
  ∀ (s : State) (n : BitVec 5), s.busy = false → s.keyWr = 0b1111#4 → s.ctrWr = 0b1111#4 →
    1 ≤ n.toNat → n.toNat ≤ 16 → s.turns = [] →
    ∃ t u, exec (.ctrXor n) s = .next t ∧ t.ctr = s.ctr ∧
      Host.Core.run Sys2Proof.core 17 t = .next u ∧
      (∀ i : Fin 16, bytesOf u.out i =
        if i.val < n.toNat then bytesOf s.inp i ^^^ keystream (bytesOf s.key) (bytesOf s.ctr) i
        else 0#8) ∧
      counterValue u.ctr = counterValue s.ctr + 1#128 ∧
      u.busy = false ∧ u.done = true ∧ u.err = .none ∧
      u.key = s.key ∧ u.inp = s.inp ∧ u.keyWr = s.keyWr ∧ u.ctrWr = s.ctrWr ∧
      u.pending = s.pending ∧ u.reads = s.reads

/-- The load pseudo-instructions (30_encoding.md R81) run on an idle block: `ldkey B` leaves KEYB = B
and KEY_VALID, `ldctr c` leaves the counter value c and CTR_VALID, `ldin B` leaves INB = B with the
missing bytes 0. R81 gives `ldin` at most 16 bytes; that more than 16 load the first 16 is the model's
choice (notes/assumptions/21.md). -/
def Obligations.LoadPseudoInstructions : Prop :=
  ∀ (s : State) (b : Bytes16) (c : BitVec 128) (l : List Byte), s.busy = false →
    (∃ t, runHost (hostLdkey b) s = .next t ∧ bytesOf t.key = b ∧ keyValid t = true ∧
      t = { s with key := t.key, keyWr := t.keyWr }) ∧
    (∃ t, runHost (hostLdctr c) s = .next t ∧ counterValue t.ctr = c ∧ ctrValid t = true ∧
      t = { s with ctr := t.ctr, ctrWr := t.ctrWr }) ∧
    (∃ t, runHost (hostLdin l) s = .next t ∧ t = { s with inp := t.inp } ∧
      ∀ i : Fin 16, bytesOf t.inp i = l.getD i.val 0#8)

/-- CTR_STREAM (42_ctr_engine.md R168, R169) on an idle block with key and counter full, for data of
any length N: it succeeds, in ceil(N/16) commands, each of 16 bytes but the last, which has the rest;
the output has length N; output byte 16m+i is
data XOR byte i of the keystream of counter c0 + m; the counter ends at c0 + ceil(N/16) modulo
2^128. That it succeeds rests on the model's choice of what happens at its `wait`: the core takes its
17 steps and one poll follows (notes/assumptions/14.md). -/
def Obligations.StreamOutputAndCounter : Prop :=
  ∀ (data : List Byte) (s : State),
    s.busy = false → s.keyWr = 0b1111#4 → s.ctrWr = 0b1111#4 →
    (cutBlocks data.length data).length = (data.length + 15) / 16 ∧
    (cutBlocks data.length data).map List.length =
      List.replicate (data.length / 16) 16 ++
        (if data.length % 16 = 0 then [] else [data.length % 16]) ∧
    ∃ out t, ctrStream data s = some (out, t) ∧ out.length = data.length ∧
      (counterValue t.ctr).toNat =
        ((counterValue s.ctr).toNat + (data.length + 15) / 16) % 2 ^ 128 ∧
      (∀ (m : Nat) (i : Fin 16), 16 * m + i.val < data.length →
        out.getD (16 * m + i.val) 0#8 = data.getD (16 * m + i.val) 0#8 ^^^
          keystream (bytesOf s.key) (be128inv (counterValue s.ctr + BitVec.ofNat 128 m)) i) ∧
      t.key = s.key ∧ t.busy = false ∧ t.keyWr = 0b1111#4 ∧ t.ctrWr = 0b1111#4

/-- Stream involution (42_ctr_engine.md R170): with the counter reloaded to where the first stream
began, streaming its output gives the data back. That both streams succeed rests on the model's
choice of what happens at their `wait`: the core takes its 17 steps and one poll follows
(notes/assumptions/14.md). -/
def Obligations.StreamInvolution : Prop :=
  ∀ (data : List Byte) (s : State),
    s.busy = false → s.keyWr = 0b1111#4 → s.ctrWr = 0b1111#4 →
    ∃ e t u v, ctrStream data s = some (e, t) ∧
      runHost (hostLdctr (counterValue s.ctr)) t = .next u ∧ ctrStream e u = some (data, v)

/-! ## Rules about the whole machine -/

/-- KEY is changed only by a WR.KEY[j] taken while not busy, in its one word, or by reset
(10_state.md R22, 90_conflicts.md C9). -/
def Obligations.OnlyTheHostChangesKey : Prop :=
  ∀ s t : State, step s = .next t →
    t.key = s.key ∨ HostDoes s .reset ∨
    (s.busy = false ∧ ∃ j d, HostTakes s (.wrKey j d) ∧ t.key = setWord s.key j d)

/-- CTR is changed only by a WR.CTR[j] taken while not busy, by the commit of a CTR_XOR, which adds
exactly 1, or by reset (10_state.md R23, 60_exceptions.md R203). -/
def Obligations.OnlyTheseChangeTheCounter : Prop :=
  ∀ s t : State, step s = .next t →
    t.ctr = s.ctr ∨ HostDoes s .reset ∨
    (s.busy = false ∧ ∃ j d, HostTakes s (.wrCtr j d) ∧ t.ctr = setWord s.ctr j d) ∨
    (CommitsNext s ∧ s.opl = .ctrXor ∧ counterValue t.ctr = counterValue s.ctr + 1#128)

/-- IN is changed only by a WR.IN[j] taken while not busy or by reset, and OUT only by a commit or by
reset (10_state.md R25, R26). -/
def Obligations.OnlyTheseChangeInAndOut : Prop :=
  ∀ s t : State, step s = .next t →
    (t.inp = s.inp ∨ HostDoes s .reset ∨
      (s.busy = false ∧ ∃ j d, HostTakes s (.wrIn j d) ∧ t.inp = setWord s.inp j d)) ∧
    (t.out = s.out ∨ HostDoes s .reset ∨ CommitsNext s)

/-- A write mask bit is set only by the host write of its word taken while not busy, and cleared only
by reset (10_state.md R33). -/
def Obligations.MasksAreOnlySet : Prop :=
  ∀ s t : State, step s = .next t → HostDoes s .reset ∨
    ∀ k : Fin 4,
      (t.keyWr.getLsbD k.val = true ↔ s.keyWr.getLsbD k.val = true ∨
        (s.busy = false ∧ ∃ d, HostTakes s (.wrKey k d))) ∧
      (t.ctrWr.getLsbD k.val = true ↔ s.ctrWr.getLsbD k.val = true ∨
        (s.busy = false ∧ ∃ d, HostTakes s (.wrCtr k d)))

/-- The only writers of BUSY and DONE (10_state.md R29): an accepted command, a rejected command, a
commit, and reset. -/
def Obligations.OnlyTheseWriteBusyAndDone : Prop :=
  ∀ s t : State, step s = .next t →
    (t.busy = s.busy ∧ t.done = s.done) ∨
    (HostDoes s .reset ∧ t.busy = false ∧ t.done = false) ∨
    (CommitsNext s ∧ t.busy = false ∧ t.done = true) ∨
    (s.busy = false ∧ t.done = false ∧ (∃ i w, HostTakes s i ∧ PresentsWord i w) ∧
      ((t.busy = true ∧ t.err = .none) ∨ (t.busy = false ∧ t.err ≠ .none)))

/-- The three ways ERR changes (10_state.md R30): set by a reject or by a dropped write, cleared by
an accepted command, cleared by reset. -/
def Obligations.ThreeWaysErrChanges : Prop :=
  ∀ s t : State, step s = .next t →
    t.err = s.err ∨
    (HostDoes s .reset ∧ t.err = .none) ∨
    (s.busy = true ∧ t.err = .busy ∧ ∃ i, HostTakes s i ∧
      ((∃ w, PresentsWord i w) ∨
        ∃ j d, i = .wrKey j d ∨ i = .wrCtr j d ∨ i = .wrIn j d)) ∨
    (s.busy = false ∧ (∃ i w, HostTakes s i ∧ PresentsWord i w) ∧
      ((t.busy = true ∧ t.err = .none) ∨
       (t.busy = false ∧ t.done = false ∧
        (t.err = .illegalCommand ∨ t.err = .invalidLength ∨ t.err = .missingKey ∨
          t.err = .missingCounterState))))

/-- The hidden registers V, RC, OPL and LENL of an idle block have no effect (10_state.md R34, R35,
R36, 70_reset_and_hazards.md R221): two states a host cannot tell apart answer alike, and stay so. -/
def Obligations.HiddenStateIsNotObservable : Prop :=
  ∀ s t : State, SameToHost s t → Answer.Related SameToHost (step s) (step t)

/-- The key and V reach the host only through a commit (10_state.md R22, 60_exceptions.md R206): two
states that differ in nothing but KEY and V answer alike at every step that is no commit, and still
differ in nothing else. -/
def Obligations.KeyReachesTheHostOnlyByCommits : Prop :=
  ∀ s t : State, SameButKey s t → ¬ CommitsNext s →
    Answer.Related SameButKey (step s) (step t)

/-- A host that waits gets its turn to go on (70_reset_and_hazards.md R234, under the model's finite
`turns`, notes/assumptions/4.md, with `wait` as 19.md reads it): from every state and every list of
turns, with the poll loop as the host's one operation, the loop ends with BUSY = 0, within the turns
left, the 17 core steps and one poll, and the last value it read has bit 0 clear (30_encoding.md
R81). -/
def Obligations.PollingEndsUnderFairness : Prop :=
  ∀ s : State, s.pending = [.wait] →
    ∃ n t, n ≤ s.turns.length + 18 ∧ Host.Core.run Sys2Proof.core n s = .next t ∧
      t.pending = [] ∧ t.busy = false ∧
      ∃ x : Word, t.reads.head? = some x ∧ x.getLsbD 0 = false

/-- One turn of the host while BUSY = 1, whatever it does with it (40_host_interface.md R90, R99,
R107, 60_exceptions.md R197). Its reset is the one exception: it clears the block, the running
command included (R106, 70_reset_and_hazards.md R220). Anything else, a poll of `wait` included,
changes no more than ERR, which a request may set to 5, the values read, the host's operations and
the turns. That a host with nothing to issue takes a turn too is the model's choice
(notes/assumptions/20.md), as is keeping its operations in a list with `wait` among them
(notes/assumptions/3.md, 19.md). -/
def Obligations.HostTurnWhileBusy : Prop :=
  ∀ s t : State, nextAgent s = .host → s.busy = true → step s = .next t →
    (HostDoes s .reset →
      t.key = zeroQuad ∧ t.ctr = zeroQuad ∧ t.inp = zeroQuad ∧ t.out = zeroQuad ∧
      t.keyWr = 0b0000#4 ∧ t.ctrWr = 0b0000#4 ∧ statusWord t = 0x00000000#32 ∧
      t.pending = s.pending.tail ∧ t.turns = s.turns.tail ∧ t.reads = s.reads) ∧
    (¬ HostDoes s .reset →
      t = { s with
        err := t.err, reads := t.reads, pending := t.pending, turns := s.turns.tail } ∧
      (t.err = s.err ∨ (t.err = .busy ∧ ∃ i, HostTakes s i)) ∧
      (t.reads = s.reads ∨ ∃ x, t.reads = x :: s.reads) ∧
      (t.pending = s.pending.tail ∨ (HostDoes s .wait ∧ t.pending = s.pending)))

/-- One turn of the host with `wait` next (30_encoding.md R81): the host reads STATUS as RD.STATUS
does (40_host_interface.md R93), `wait` stays next exactly while bit 0 of the value read is 1, which
is BUSY, and the block is unchanged. That `wait` is one operation of a list, which a later turn takes
up again, is the model's reading (notes/assumptions/3.md, 19.md). -/
def Obligations.WaitPollsStatus : Prop :=
  ∀ (s : State) (rest : List HostOp), nextAgent s = .host → s.pending = .wait :: rest →
    ∃ x : Word, exec .rdStatus s = .next { s with reads := x :: s.reads } ∧
      (x.getLsbD 0 = true ↔ s.busy = true) ∧
      step s = .next { s with
        reads := x :: s.reads, turns := s.turns.tail,
        pending := if x.getLsbD 0 = true then .wait :: rest else rest }
end

