-- ==== Sys2Proof/Laws/State.lean ====
section
/-! SUPPORT. One lemma per field per update of the state, each true by unfolding once, so that no
later proof unfolds a record update. -/

namespace Sys2Proof.Laws

open Sys2Proof.Machine

@[simp] theorem readReturns_key (d : Word) (s : State) : (readReturns d s).key = s.key := rfl
@[simp] theorem readReturns_ctr (d : Word) (s : State) : (readReturns d s).ctr = s.ctr := rfl
@[simp] theorem readReturns_inp (d : Word) (s : State) : (readReturns d s).inp = s.inp := rfl
@[simp] theorem readReturns_out (d : Word) (s : State) : (readReturns d s).out = s.out := rfl
@[simp] theorem readReturns_busy (d : Word) (s : State) : (readReturns d s).busy = s.busy := rfl
@[simp] theorem readReturns_done (d : Word) (s : State) : (readReturns d s).done = s.done := rfl
@[simp] theorem readReturns_err (d : Word) (s : State) : (readReturns d s).err = s.err := rfl
@[simp] theorem readReturns_keyWr (d : Word) (s : State) : (readReturns d s).keyWr = s.keyWr := rfl
@[simp] theorem readReturns_ctrWr (d : Word) (s : State) : (readReturns d s).ctrWr = s.ctrWr := rfl
@[simp] theorem readReturns_v (d : Word) (s : State) : (readReturns d s).v = s.v := rfl
@[simp] theorem readReturns_rc (d : Word) (s : State) : (readReturns d s).rc = s.rc := rfl
@[simp] theorem readReturns_opl (d : Word) (s : State) : (readReturns d s).opl = s.opl := rfl
@[simp] theorem readReturns_lenl (d : Word) (s : State) : (readReturns d s).lenl = s.lenl := rfl
@[simp] theorem readReturns_pending (d : Word) (s : State) : (readReturns d s).pending = s.pending := rfl
@[simp] theorem readReturns_turns (d : Word) (s : State) : (readReturns d s).turns = s.turns := rfl
@[simp] theorem readReturns_reads (d : Word) (s : State) : (readReturns d s).reads = d :: s.reads := rfl
@[simp] theorem readReturns_freeCount (d : Word) (s : State) : (readReturns d s).freeCount = s.freeCount := rfl

@[simp] theorem dropWrite_key (s : State) : (dropWrite s).key = s.key := rfl
@[simp] theorem dropWrite_ctr (s : State) : (dropWrite s).ctr = s.ctr := rfl
@[simp] theorem dropWrite_inp (s : State) : (dropWrite s).inp = s.inp := rfl
@[simp] theorem dropWrite_out (s : State) : (dropWrite s).out = s.out := rfl
@[simp] theorem dropWrite_busy (s : State) : (dropWrite s).busy = s.busy := rfl
@[simp] theorem dropWrite_done (s : State) : (dropWrite s).done = s.done := rfl
@[simp] theorem dropWrite_err (s : State) : (dropWrite s).err = .busy := rfl
@[simp] theorem dropWrite_keyWr (s : State) : (dropWrite s).keyWr = s.keyWr := rfl
@[simp] theorem dropWrite_ctrWr (s : State) : (dropWrite s).ctrWr = s.ctrWr := rfl
@[simp] theorem dropWrite_v (s : State) : (dropWrite s).v = s.v := rfl
@[simp] theorem dropWrite_rc (s : State) : (dropWrite s).rc = s.rc := rfl
@[simp] theorem dropWrite_opl (s : State) : (dropWrite s).opl = s.opl := rfl
@[simp] theorem dropWrite_lenl (s : State) : (dropWrite s).lenl = s.lenl := rfl
@[simp] theorem dropWrite_pending (s : State) : (dropWrite s).pending = s.pending := rfl
@[simp] theorem dropWrite_turns (s : State) : (dropWrite s).turns = s.turns := rfl
@[simp] theorem dropWrite_reads (s : State) : (dropWrite s).reads = s.reads := rfl
@[simp] theorem dropWrite_freeCount (s : State) : (dropWrite s).freeCount = s.freeCount := rfl

@[simp] theorem rejectCommand_key (code : ErrCode) (s : State) : (rejectCommand code s).key = s.key := rfl
@[simp] theorem rejectCommand_ctr (code : ErrCode) (s : State) : (rejectCommand code s).ctr = s.ctr := rfl
@[simp] theorem rejectCommand_inp (code : ErrCode) (s : State) : (rejectCommand code s).inp = s.inp := rfl
@[simp] theorem rejectCommand_out (code : ErrCode) (s : State) : (rejectCommand code s).out = s.out := rfl
@[simp] theorem rejectCommand_busy (code : ErrCode) (s : State) : (rejectCommand code s).busy = s.busy := rfl
@[simp] theorem rejectCommand_done (code : ErrCode) (s : State) : (rejectCommand code s).done = false := rfl
@[simp] theorem rejectCommand_err (code : ErrCode) (s : State) : (rejectCommand code s).err = code := rfl
@[simp] theorem rejectCommand_keyWr (code : ErrCode) (s : State) : (rejectCommand code s).keyWr = s.keyWr := rfl
@[simp] theorem rejectCommand_ctrWr (code : ErrCode) (s : State) : (rejectCommand code s).ctrWr = s.ctrWr := rfl
@[simp] theorem rejectCommand_v (code : ErrCode) (s : State) : (rejectCommand code s).v = s.v := rfl
@[simp] theorem rejectCommand_rc (code : ErrCode) (s : State) : (rejectCommand code s).rc = s.rc := rfl
@[simp] theorem rejectCommand_opl (code : ErrCode) (s : State) : (rejectCommand code s).opl = s.opl := rfl
@[simp] theorem rejectCommand_lenl (code : ErrCode) (s : State) : (rejectCommand code s).lenl = s.lenl := rfl
@[simp] theorem rejectCommand_pending (code : ErrCode) (s : State) : (rejectCommand code s).pending = s.pending := rfl
@[simp] theorem rejectCommand_turns (code : ErrCode) (s : State) : (rejectCommand code s).turns = s.turns := rfl
@[simp] theorem rejectCommand_reads (code : ErrCode) (s : State) : (rejectCommand code s).reads = s.reads := rfl
@[simp] theorem rejectCommand_freeCount (code : ErrCode) (s : State) : (rejectCommand code s).freeCount = s.freeCount := rfl

@[simp] theorem acceptCommand_key (c : Command) (s : State) : (acceptCommand c s).key = s.key := rfl
@[simp] theorem acceptCommand_ctr (c : Command) (s : State) : (acceptCommand c s).ctr = s.ctr := rfl
@[simp] theorem acceptCommand_inp (c : Command) (s : State) : (acceptCommand c s).inp = s.inp := rfl
@[simp] theorem acceptCommand_out (c : Command) (s : State) : (acceptCommand c s).out = s.out := rfl
@[simp] theorem acceptCommand_busy (c : Command) (s : State) : (acceptCommand c s).busy = true := rfl
@[simp] theorem acceptCommand_done (c : Command) (s : State) : (acceptCommand c s).done = false := rfl
@[simp] theorem acceptCommand_err (c : Command) (s : State) : (acceptCommand c s).err = .none := rfl
@[simp] theorem acceptCommand_keyWr (c : Command) (s : State) : (acceptCommand c s).keyWr = s.keyWr := rfl
@[simp] theorem acceptCommand_ctrWr (c : Command) (s : State) : (acceptCommand c s).ctrWr = s.ctrWr := rfl
@[simp] theorem acceptCommand_v (c : Command) (s : State) : (acceptCommand c s).v = xorQuad (inputBlock (commandOp c) s) s.key := rfl
@[simp] theorem acceptCommand_rc (c : Command) (s : State) : (acceptCommand c s).rc = 0 := rfl
@[simp] theorem acceptCommand_opl (c : Command) (s : State) : (acceptCommand c s).opl = commandOp c := rfl
@[simp] theorem acceptCommand_lenl (c : Command) (s : State) : (acceptCommand c s).lenl = commandLen c := rfl
@[simp] theorem acceptCommand_pending (c : Command) (s : State) : (acceptCommand c s).pending = s.pending := rfl
@[simp] theorem acceptCommand_turns (c : Command) (s : State) : (acceptCommand c s).turns = s.turns := rfl
@[simp] theorem acceptCommand_reads (c : Command) (s : State) : (acceptCommand c s).reads = s.reads := rfl
@[simp] theorem acceptCommand_freeCount (c : Command) (s : State) : (acceptCommand c s).freeCount = s.freeCount := rfl

@[simp] theorem storeKey_key (j : Fin 4) (d : Word) (s : State) : (storeKey j d s).key = setWord s.key j d := rfl
@[simp] theorem storeKey_ctr (j : Fin 4) (d : Word) (s : State) : (storeKey j d s).ctr = s.ctr := rfl
@[simp] theorem storeKey_inp (j : Fin 4) (d : Word) (s : State) : (storeKey j d s).inp = s.inp := rfl
@[simp] theorem storeKey_out (j : Fin 4) (d : Word) (s : State) : (storeKey j d s).out = s.out := rfl
@[simp] theorem storeKey_busy (j : Fin 4) (d : Word) (s : State) : (storeKey j d s).busy = s.busy := rfl
@[simp] theorem storeKey_done (j : Fin 4) (d : Word) (s : State) : (storeKey j d s).done = s.done := rfl
@[simp] theorem storeKey_err (j : Fin 4) (d : Word) (s : State) : (storeKey j d s).err = s.err := rfl
@[simp] theorem storeKey_keyWr (j : Fin 4) (d : Word) (s : State) : (storeKey j d s).keyWr = setMaskBit s.keyWr j := rfl
@[simp] theorem storeKey_ctrWr (j : Fin 4) (d : Word) (s : State) : (storeKey j d s).ctrWr = s.ctrWr := rfl
@[simp] theorem storeKey_v (j : Fin 4) (d : Word) (s : State) : (storeKey j d s).v = s.v := rfl
@[simp] theorem storeKey_rc (j : Fin 4) (d : Word) (s : State) : (storeKey j d s).rc = s.rc := rfl
@[simp] theorem storeKey_opl (j : Fin 4) (d : Word) (s : State) : (storeKey j d s).opl = s.opl := rfl
@[simp] theorem storeKey_lenl (j : Fin 4) (d : Word) (s : State) : (storeKey j d s).lenl = s.lenl := rfl
@[simp] theorem storeKey_pending (j : Fin 4) (d : Word) (s : State) : (storeKey j d s).pending = s.pending := rfl
@[simp] theorem storeKey_turns (j : Fin 4) (d : Word) (s : State) : (storeKey j d s).turns = s.turns := rfl
@[simp] theorem storeKey_reads (j : Fin 4) (d : Word) (s : State) : (storeKey j d s).reads = s.reads := rfl
@[simp] theorem storeKey_freeCount (j : Fin 4) (d : Word) (s : State) : (storeKey j d s).freeCount = s.freeCount := rfl

@[simp] theorem storeCtr_key (j : Fin 4) (d : Word) (s : State) : (storeCtr j d s).key = s.key := rfl
@[simp] theorem storeCtr_ctr (j : Fin 4) (d : Word) (s : State) : (storeCtr j d s).ctr = setWord s.ctr j d := rfl
@[simp] theorem storeCtr_inp (j : Fin 4) (d : Word) (s : State) : (storeCtr j d s).inp = s.inp := rfl
@[simp] theorem storeCtr_out (j : Fin 4) (d : Word) (s : State) : (storeCtr j d s).out = s.out := rfl
@[simp] theorem storeCtr_busy (j : Fin 4) (d : Word) (s : State) : (storeCtr j d s).busy = s.busy := rfl
@[simp] theorem storeCtr_done (j : Fin 4) (d : Word) (s : State) : (storeCtr j d s).done = s.done := rfl
@[simp] theorem storeCtr_err (j : Fin 4) (d : Word) (s : State) : (storeCtr j d s).err = s.err := rfl
@[simp] theorem storeCtr_keyWr (j : Fin 4) (d : Word) (s : State) : (storeCtr j d s).keyWr = s.keyWr := rfl
@[simp] theorem storeCtr_ctrWr (j : Fin 4) (d : Word) (s : State) : (storeCtr j d s).ctrWr = setMaskBit s.ctrWr j := rfl
@[simp] theorem storeCtr_v (j : Fin 4) (d : Word) (s : State) : (storeCtr j d s).v = s.v := rfl
@[simp] theorem storeCtr_rc (j : Fin 4) (d : Word) (s : State) : (storeCtr j d s).rc = s.rc := rfl
@[simp] theorem storeCtr_opl (j : Fin 4) (d : Word) (s : State) : (storeCtr j d s).opl = s.opl := rfl
@[simp] theorem storeCtr_lenl (j : Fin 4) (d : Word) (s : State) : (storeCtr j d s).lenl = s.lenl := rfl
@[simp] theorem storeCtr_pending (j : Fin 4) (d : Word) (s : State) : (storeCtr j d s).pending = s.pending := rfl
@[simp] theorem storeCtr_turns (j : Fin 4) (d : Word) (s : State) : (storeCtr j d s).turns = s.turns := rfl
@[simp] theorem storeCtr_reads (j : Fin 4) (d : Word) (s : State) : (storeCtr j d s).reads = s.reads := rfl
@[simp] theorem storeCtr_freeCount (j : Fin 4) (d : Word) (s : State) : (storeCtr j d s).freeCount = s.freeCount := rfl

@[simp] theorem storeIn_key (j : Fin 4) (d : Word) (s : State) : (storeIn j d s).key = s.key := rfl
@[simp] theorem storeIn_ctr (j : Fin 4) (d : Word) (s : State) : (storeIn j d s).ctr = s.ctr := rfl
@[simp] theorem storeIn_inp (j : Fin 4) (d : Word) (s : State) : (storeIn j d s).inp = setWord s.inp j d := rfl
@[simp] theorem storeIn_out (j : Fin 4) (d : Word) (s : State) : (storeIn j d s).out = s.out := rfl
@[simp] theorem storeIn_busy (j : Fin 4) (d : Word) (s : State) : (storeIn j d s).busy = s.busy := rfl
@[simp] theorem storeIn_done (j : Fin 4) (d : Word) (s : State) : (storeIn j d s).done = s.done := rfl
@[simp] theorem storeIn_err (j : Fin 4) (d : Word) (s : State) : (storeIn j d s).err = s.err := rfl
@[simp] theorem storeIn_keyWr (j : Fin 4) (d : Word) (s : State) : (storeIn j d s).keyWr = s.keyWr := rfl
@[simp] theorem storeIn_ctrWr (j : Fin 4) (d : Word) (s : State) : (storeIn j d s).ctrWr = s.ctrWr := rfl
@[simp] theorem storeIn_v (j : Fin 4) (d : Word) (s : State) : (storeIn j d s).v = s.v := rfl
@[simp] theorem storeIn_rc (j : Fin 4) (d : Word) (s : State) : (storeIn j d s).rc = s.rc := rfl
@[simp] theorem storeIn_opl (j : Fin 4) (d : Word) (s : State) : (storeIn j d s).opl = s.opl := rfl
@[simp] theorem storeIn_lenl (j : Fin 4) (d : Word) (s : State) : (storeIn j d s).lenl = s.lenl := rfl
@[simp] theorem storeIn_pending (j : Fin 4) (d : Word) (s : State) : (storeIn j d s).pending = s.pending := rfl
@[simp] theorem storeIn_turns (j : Fin 4) (d : Word) (s : State) : (storeIn j d s).turns = s.turns := rfl
@[simp] theorem storeIn_reads (j : Fin 4) (d : Word) (s : State) : (storeIn j d s).reads = s.reads := rfl
@[simp] theorem storeIn_freeCount (j : Fin 4) (d : Word) (s : State) : (storeIn j d s).freeCount = s.freeCount := rfl

@[simp] theorem roundStep_key (s : State) : (roundStep s).key = s.key := rfl
@[simp] theorem roundStep_ctr (s : State) : (roundStep s).ctr = s.ctr := rfl
@[simp] theorem roundStep_inp (s : State) : (roundStep s).inp = s.inp := rfl
@[simp] theorem roundStep_out (s : State) : (roundStep s).out = s.out := rfl
@[simp] theorem roundStep_busy (s : State) : (roundStep s).busy = s.busy := rfl
@[simp] theorem roundStep_done (s : State) : (roundStep s).done = s.done := rfl
@[simp] theorem roundStep_err (s : State) : (roundStep s).err = s.err := rfl
@[simp] theorem roundStep_keyWr (s : State) : (roundStep s).keyWr = s.keyWr := rfl
@[simp] theorem roundStep_ctrWr (s : State) : (roundStep s).ctrWr = s.ctrWr := rfl
@[simp] theorem roundStep_v (s : State) : (roundStep s).v = roundDir (opDirection s.opl) s.v := rfl
@[simp] theorem roundStep_rc (s : State) : (roundStep s).rc = nextRc s.rc := rfl
@[simp] theorem roundStep_opl (s : State) : (roundStep s).opl = s.opl := rfl
@[simp] theorem roundStep_lenl (s : State) : (roundStep s).lenl = s.lenl := rfl
@[simp] theorem roundStep_pending (s : State) : (roundStep s).pending = s.pending := rfl
@[simp] theorem roundStep_turns (s : State) : (roundStep s).turns = s.turns := rfl
@[simp] theorem roundStep_reads (s : State) : (roundStep s).reads = s.reads := rfl
@[simp] theorem roundStep_freeCount (s : State) : (roundStep s).freeCount = s.freeCount := rfl

@[simp] theorem finishCommand_key (s : State) : (finishCommand s).key = s.key := rfl
@[simp] theorem finishCommand_ctr (s : State) : (finishCommand s).ctr = s.ctr := rfl
@[simp] theorem finishCommand_inp (s : State) : (finishCommand s).inp = s.inp := rfl
@[simp] theorem finishCommand_out (s : State) : (finishCommand s).out = s.out := rfl
@[simp] theorem finishCommand_busy (s : State) : (finishCommand s).busy = false := rfl
@[simp] theorem finishCommand_done (s : State) : (finishCommand s).done = true := rfl
@[simp] theorem finishCommand_err (s : State) : (finishCommand s).err = s.err := rfl
@[simp] theorem finishCommand_keyWr (s : State) : (finishCommand s).keyWr = s.keyWr := rfl
@[simp] theorem finishCommand_ctrWr (s : State) : (finishCommand s).ctrWr = s.ctrWr := rfl
@[simp] theorem finishCommand_v (s : State) : (finishCommand s).v = Config.idleV s.freeCount := rfl
@[simp] theorem finishCommand_rc (s : State) : (finishCommand s).rc = Config.idleRc s.freeCount := rfl
@[simp] theorem finishCommand_opl (s : State) : (finishCommand s).opl = Config.idleOpl s.freeCount := rfl
@[simp] theorem finishCommand_lenl (s : State) : (finishCommand s).lenl = Config.idleLenl s.freeCount := rfl
@[simp] theorem finishCommand_pending (s : State) : (finishCommand s).pending = s.pending := rfl
@[simp] theorem finishCommand_turns (s : State) : (finishCommand s).turns = s.turns := rfl
@[simp] theorem finishCommand_reads (s : State) : (finishCommand s).reads = s.reads := rfl
@[simp] theorem finishCommand_freeCount (s : State) : (finishCommand s).freeCount = s.freeCount + 1 := rfl

@[simp] theorem resetBlock_key (s : State) : (resetBlock s).key = State.reset.key := rfl
@[simp] theorem resetBlock_ctr (s : State) : (resetBlock s).ctr = State.reset.ctr := rfl
@[simp] theorem resetBlock_inp (s : State) : (resetBlock s).inp = State.reset.inp := rfl
@[simp] theorem resetBlock_out (s : State) : (resetBlock s).out = State.reset.out := rfl
@[simp] theorem resetBlock_busy (s : State) : (resetBlock s).busy = State.reset.busy := rfl
@[simp] theorem resetBlock_done (s : State) : (resetBlock s).done = State.reset.done := rfl
@[simp] theorem resetBlock_err (s : State) : (resetBlock s).err = State.reset.err := rfl
@[simp] theorem resetBlock_keyWr (s : State) : (resetBlock s).keyWr = State.reset.keyWr := rfl
@[simp] theorem resetBlock_ctrWr (s : State) : (resetBlock s).ctrWr = State.reset.ctrWr := rfl
@[simp] theorem resetBlock_v (s : State) : (resetBlock s).v = State.reset.v := rfl
@[simp] theorem resetBlock_rc (s : State) : (resetBlock s).rc = State.reset.rc := rfl
@[simp] theorem resetBlock_opl (s : State) : (resetBlock s).opl = State.reset.opl := rfl
@[simp] theorem resetBlock_lenl (s : State) : (resetBlock s).lenl = State.reset.lenl := rfl
@[simp] theorem resetBlock_pending (s : State) : (resetBlock s).pending = s.pending := rfl
@[simp] theorem resetBlock_turns (s : State) : (resetBlock s).turns = s.turns := rfl
@[simp] theorem resetBlock_reads (s : State) : (resetBlock s).reads = s.reads := rfl
@[simp] theorem resetBlock_freeCount (s : State) : (resetBlock s).freeCount = s.freeCount := rfl

@[simp] theorem popTurn_key (s : State) : (popTurn s).key = s.key := rfl
@[simp] theorem popTurn_ctr (s : State) : (popTurn s).ctr = s.ctr := rfl
@[simp] theorem popTurn_inp (s : State) : (popTurn s).inp = s.inp := rfl
@[simp] theorem popTurn_out (s : State) : (popTurn s).out = s.out := rfl
@[simp] theorem popTurn_busy (s : State) : (popTurn s).busy = s.busy := rfl
@[simp] theorem popTurn_done (s : State) : (popTurn s).done = s.done := rfl
@[simp] theorem popTurn_err (s : State) : (popTurn s).err = s.err := rfl
@[simp] theorem popTurn_keyWr (s : State) : (popTurn s).keyWr = s.keyWr := rfl
@[simp] theorem popTurn_ctrWr (s : State) : (popTurn s).ctrWr = s.ctrWr := rfl
@[simp] theorem popTurn_v (s : State) : (popTurn s).v = s.v := rfl
@[simp] theorem popTurn_rc (s : State) : (popTurn s).rc = s.rc := rfl
@[simp] theorem popTurn_opl (s : State) : (popTurn s).opl = s.opl := rfl
@[simp] theorem popTurn_lenl (s : State) : (popTurn s).lenl = s.lenl := rfl
@[simp] theorem popTurn_pending (s : State) : (popTurn s).pending = s.pending := rfl
@[simp] theorem popTurn_turns (s : State) : (popTurn s).turns = s.turns.tail := rfl
@[simp] theorem popTurn_reads (s : State) : (popTurn s).reads = s.reads := rfl
@[simp] theorem popTurn_freeCount (s : State) : (popTurn s).freeCount = s.freeCount := rfl

@[simp] theorem setPending_key (ops : List HostOp) (s : State) : (setPending ops s).key = s.key := rfl
@[simp] theorem setPending_ctr (ops : List HostOp) (s : State) : (setPending ops s).ctr = s.ctr := rfl
@[simp] theorem setPending_inp (ops : List HostOp) (s : State) : (setPending ops s).inp = s.inp := rfl
@[simp] theorem setPending_out (ops : List HostOp) (s : State) : (setPending ops s).out = s.out := rfl
@[simp] theorem setPending_busy (ops : List HostOp) (s : State) : (setPending ops s).busy = s.busy := rfl
@[simp] theorem setPending_done (ops : List HostOp) (s : State) : (setPending ops s).done = s.done := rfl
@[simp] theorem setPending_err (ops : List HostOp) (s : State) : (setPending ops s).err = s.err := rfl
@[simp] theorem setPending_keyWr (ops : List HostOp) (s : State) : (setPending ops s).keyWr = s.keyWr := rfl
@[simp] theorem setPending_ctrWr (ops : List HostOp) (s : State) : (setPending ops s).ctrWr = s.ctrWr := rfl
@[simp] theorem setPending_v (ops : List HostOp) (s : State) : (setPending ops s).v = s.v := rfl
@[simp] theorem setPending_rc (ops : List HostOp) (s : State) : (setPending ops s).rc = s.rc := rfl
@[simp] theorem setPending_opl (ops : List HostOp) (s : State) : (setPending ops s).opl = s.opl := rfl
@[simp] theorem setPending_lenl (ops : List HostOp) (s : State) : (setPending ops s).lenl = s.lenl := rfl
@[simp] theorem setPending_pending (ops : List HostOp) (s : State) : (setPending ops s).pending = ops := rfl
@[simp] theorem setPending_turns (ops : List HostOp) (s : State) : (setPending ops s).turns = s.turns := rfl
@[simp] theorem setPending_reads (ops : List HostOp) (s : State) : (setPending ops s).reads = s.reads := rfl
@[simp] theorem setPending_freeCount (ops : List HostOp) (s : State) : (setPending ops s).freeCount = s.freeCount := rfl

end Sys2Proof.Laws
end

