-- ==== Sys2Proof/Laws/Ops.lean ====
section
/-! SUPPORT. For each shared operation, once, everything it can do. -/

namespace Sys2Proof.Laws

open Sys2Proof.Machine

@[simp] theorem keyValid_iff (s : State) : keyValid s = true ↔ s.keyWr = 0b1111#4 := by
  simp [keyValid]

@[simp] theorem ctrValid_iff (s : State) : ctrValid s = true ↔ s.ctrWr = 0b1111#4 := by
  simp [ctrValid]

@[simp] theorem wordAt_setWord_same (q : Quad) (j : Fin 4) (d : Word) :
    wordAt (setWord q j d) j = d := by
  match j with
  | 0 | 1 | 2 | 3 => rfl

theorem wordAt_setWord_other (q : Quad) {j k : Fin 4} (d : Word) (h : k ≠ j) :
    wordAt (setWord q j d) k = wordAt q k := by
  match j, k with
  | 0, 1 | 0, 2 | 0, 3 | 1, 0 | 1, 2 | 1, 3 | 2, 0 | 2, 1 | 2, 3 | 3, 0 | 3, 1 | 3, 2 => rfl
  | 0, 0 | 1, 1 | 2, 2 | 3, 3 => exact absurd rfl h

/-- Two quantities with the same words are the same. -/
theorem quad_ext {p q : Quad} (h : ∀ j, wordAt p j = wordAt q j) : p = q := by
  obtain ⟨a, b, c, d⟩ := p
  obtain ⟨a', b', c', d'⟩ := q
  have h0 : a = a' := h 0
  have h1 : b = b' := h 1
  have h2 : c = c' := h 2
  have h3 : d = d' := h 3
  subst h0 h1 h2 h3
  rfl

@[simp] theorem xorQuad_cancel (p q : Quad) : xorQuad (xorQuad p q) q = p := by
  simp [xorQuad]

theorem unlessBusy_busy (f : State → State) {s : State} (h : s.busy = true) :
    unlessBusy f s = dropWrite s := by simp [unlessBusy, h]

theorem unlessBusy_idle (f : State → State) {s : State} (h : s.busy = false) :
    unlessBusy f s = f s := by simp [unlessBusy, h]

/-- Everything a presented command can do: dropped, rejected by its decode, rejected for a missing
key or counter, or accepted. -/
theorem presentCommand_cases (c : Except ErrCode Command) (s : State) :
    (s.busy = true ∧ presentCommand c s = dropWrite s) ∨
    (s.busy = false ∧ ∃ code, c = .error code ∧ presentCommand c s = rejectCommand code s) ∨
    (s.busy = false ∧ ∃ c', c = .ok c' ∧
      ((keyValid s = false ∧ presentCommand c s = rejectCommand .missingKey s) ∨
       (keyValid s = true ∧ needsCounter c' = true ∧ ctrValid s = false ∧
        presentCommand c s = rejectCommand .missingCounterState s) ∨
       (keyValid s = true ∧ (needsCounter c' = true → ctrValid s = true) ∧
        presentCommand c s = acceptCommand c' s))) := by
  cases hb : s.busy with
  | true => exact .inl ⟨rfl, unlessBusy_busy _ hb⟩
  | false =>
    have hp : presentCommand c s = checkCommand c s := unlessBusy_idle _ hb
    rw [hp]
    cases c with
    | error code => exact .inr (.inl ⟨rfl, code, rfl, rfl⟩)
    | ok c' =>
      refine .inr (.inr ⟨rfl, c', rfl, ?_⟩)
      unfold checkCommand
      cases hk : keyValid s with
      | false => exact .inl ⟨rfl, if_pos rfl⟩
      | true =>
        cases hn : needsCounter c' <;> cases hc : ctrValid s <;> simp [hn]

/-- Everything the core's turn can do: nothing while idle, a round, or the commit of the latched
opcode. -/
theorem coreTurn_cases (s : State) :
    (s.busy = false ∧ coreTurn s = s) ∨
    (s.busy = true ∧ s.rc.val < 16 ∧ coreTurn s = roundStep s) ∨
    (s.busy = true ∧ s.rc.val = 16 ∧ s.opl ≠ .ctrXor ∧ coreTurn s = commitPerm s) ∨
    (s.busy = true ∧ s.rc.val = 16 ∧ s.opl = .ctrXor ∧ coreTurn s = commitCtr s) := by
  have hr : s.rc.val < 17 := s.rc.isLt
  cases hb : s.busy with
  | false => exact .inl ⟨rfl, by simp [coreTurn, hb]⟩
  | true =>
    by_cases hlt : s.rc.val < 16
    · exact .inr (.inl ⟨rfl, hlt, by simp [coreTurn, coreStep, hb, Config.rounds, hlt]⟩)
    · have heq : s.rc.val = 16 := by omega
      cases ho : s.opl <;> simp [coreTurn, coreStep, commitStep, hb, Config.rounds, heq, ho]

theorem nextRc_val {rc : Fin 17} (h : rc.val < 16) : (nextRc rc).val = rc.val + 1 := by
  simp [nextRc, h]

theorem coreTurns_add (m n : Nat) (s : State) : coreTurns (m + n) s = coreTurns n (coreTurns m s) := by
  induction m generalizing s with
  | zero => simp [coreTurns]
  | succ m ih => rw [Nat.succ_add]; exact ih _

/-- A request is refused by name or runs the instruction it decodes to. -/
theorem takeRequest_cases (r : Request) (s : State) :
    (∃ e, decode r = .error e ∧ takeRequest r s = .refused (decodeRefusal e)) ∨
    (∃ i, decode r = .ok i ∧ takeRequest r s = exec i s) := by
  unfold takeRequest
  cases h : decode r with
  | error e => exact .inl ⟨e, rfl, rfl⟩
  | ok i => exact .inr ⟨i, rfl, rfl⟩

/-- The poll's request is RD.STATUS. -/
theorem decode_status : decode (readReq offStatus) = .ok .rdStatus := by decide

/-- Bit 0 of STATUS is BUSY (10_state.md R28). -/
theorem statusWord_bit0 (s : State) : (statusWord s).getLsbD 0 = s.busy := by
  unfold statusWord
  rw [BitVec.getLsbD_setWidth, BitVec.getLsbD_append]
  simp

/-- A poll returns STATUS, and stays the host's next operation as long as BUSY = 1. -/
theorem pollStatus_eq (s : State) :
    pollStatus s = .next (readReturns (statusWord s)
      (if s.busy = true then setPending (.wait :: s.pending) s else s)) := by
  unfold pollStatus takeRequest
  rw [statusWord_bit0, decode_status]
  cases s.busy <;> rfl

/-- Everything a step that answers a next state can do: a core's turn, an idle host, or one of the
host's three operations. -/
theorem step_cases {s t : State} (h : step s = .next t) :
    (nextAgent s = .core ∧ t = coreTurn (popTurn s)) ∨
    (nextAgent s = .host ∧ s.pending = [] ∧ t = popTurn s) ∨
    (nextAgent s = .host ∧ ∃ rest, s.pending = .reset :: rest ∧
      t = resetBlock (setPending rest (popTurn s))) ∨
    (nextAgent s = .host ∧ ∃ rest, s.pending = .wait :: rest ∧
      t = readReturns (statusWord s)
        (if s.busy = true then popTurn s else setPending rest (popTurn s))) ∨
    (nextAgent s = .host ∧ ∃ r rest i, s.pending = .request r :: rest ∧ decode r = .ok i ∧
      exec i (setPending rest (popTurn s)) = .next t) := by
  unfold step at h
  cases ha : nextAgent s with
  | core => exact .inl ⟨rfl, by simpa [ha] using h.symm⟩
  | host =>
    simp only [ha, hostTurn, popTurn_pending] at h
    cases hp : s.pending with
    | nil => exact .inr (.inl ⟨rfl, rfl, by simpa [hp] using h.symm⟩)
    | cons op rest =>
      simp only [hp] at h
      cases op with
      | reset => exact .inr (.inr (.inl ⟨rfl, rest, rfl, by simpa [hostOperation] using h.symm⟩))
      | wait =>
        refine .inr (.inr (.inr (.inl ⟨rfl, rest, rfl, ?_⟩)))
        simp only [hostOperation, pollStatus_eq, Host.Outcome.next.injEq] at h
        subst h
        cases hb : s.busy <;> simp [popTurn, readReturns, statusWord, keyValid, ctrValid, hp, hb]
      | request r =>
        refine .inr (.inr (.inr (.inr ⟨rfl, r, rest, ?_⟩)))
        rcases takeRequest_cases r (setPending rest (popTurn s)) with ⟨e, _, he⟩ | ⟨i, hi, hx⟩
        · simp [hostOperation, he] at h
        · exact ⟨i, rfl, hi, by simpa [hostOperation, hx] using h⟩

end Sys2Proof.Laws
end

