-- ==== Sys2Proof/Laws/Exec.lean ====
section
/-! SUPPORT. Everything an instruction can do, said once over all of exec's arms. -/

namespace Sys2Proof.Laws

open Sys2Proof.Machine

/-- The command an instruction presents to CMD, if it presents one. -/
def presented : Instr → Option (Except ErrCode Command)
  | .permFwd => some (.ok .permFwd)
  | .permInv => some (.ok .permInv)
  | .ctrXor n => some (if legalLen n = true then .ok (.ctrXor n) else .error .invalidLength)
  | .cmdIllegal _ => some (.error .illegalCommand)
  | .wrCmd d => some (decodeCommand d)
  | _ => none

/-- Everything an instruction that answers a next state can do: present a command, return a read
value, nothing, or store a word of KEY, CTR or IN unless the core is busy. -/
theorem exec_cases {i : Instr} {s t : State} (h : exec i s = .next t) :
    (∃ c, presented i = some c ∧ t = presentCommand c s) ∨
    (∃ d, t = readReturns d s) ∨ t = s ∨
    (∃ j d, i = .wrKey j d ∧ t = unlessBusy (storeKey j d) s) ∨
    (∃ j d, i = .wrCtr j d ∧ t = unlessBusy (storeCtr j d) s) ∨
    (∃ j d, i = .wrIn j d ∧ t = unlessBusy (storeIn j d) s) := by
  cases i with
  | permFwd | permInv | ctrXor n | cmdIllegal w | wrCmd d =>
    exact .inl ⟨_, rfl, by
      simpa [exec, execPermFwd, execPermInv, execCtrXor, execCmdIllegal, execWrCmd] using h.symm⟩
  | rdCmd | rdStatus | rdReserved08 k | rdKey j | rdCtr j | rdIn j | rdOut j | rdReserved50 k
    | rdReserved60 k | rdReserved80 k =>
    exact .inr (.inl ⟨_, by
      simpa [exec, execRdCmd, execRdStatus, execRdReserved08, execRdKey, execRdCtr, execRdIn,
        execRdOut, execRdReserved50, execRdReserved60, execRdReserved80] using h.symm⟩)
  | wrStatus d | wrOut j d | wrReserved08 k d | wrReserved50 k d | wrReserved60 k d
    | wrReserved80 k d =>
    exact .inr (.inr (.inl (by
      simpa [exec, execWrStatus, execWrOut, execWrReserved08, execWrReserved50, execWrReserved60,
        execWrReserved80, ignoreWrite] using h.symm)))
  | wrKey j d => exact .inr (.inr (.inr (.inl ⟨j, d, rfl, by simpa [exec, execWrKey] using h.symm⟩)))
  | wrCtr j d =>
    exact .inr (.inr (.inr (.inr (.inl ⟨j, d, rfl, by simpa [exec, execWrCtr] using h.symm⟩))))
  | wrIn j d =>
    exact .inr (.inr (.inr (.inr (.inr ⟨j, d, rfl, by simpa [exec, execWrIn] using h.symm⟩))))
  | refusedUnaligned1 a b =>
    exact absurd h (by simp [exec, execRefusedUnaligned1, refuseOffset])
  | refusedUnaligned2 a b =>
    exact absurd h (by simp [exec, execRefusedUnaligned2, refuseOffset])
  | refusedUnaligned3 a b =>
    exact absurd h (by simp [exec, execRefusedUnaligned3, refuseOffset])

end Sys2Proof.Laws
end

