-- ==== Sys2Proof/Laws/PerInstr.lean ====
section
/-! SUPPORT. Statements made per instruction. RequestForm: an instruction's encoding is a command
word, or a 32-bit bus request at an offset of the window (30_encoding.md R70, R71). -/

namespace Sys2Proof.Laws.RequestForm

/-- The encoding of an instruction has one of the block's two formats. -/
def Statement (i : Instr) : Prop :=
  (∃ w, encode i = .cmd w) ∨
  (∃ off wdata, encode i = .bus ⟨off, 32, wdata⟩ ∧ off ≤ 0xFF)

theorem cmd_form {i : Instr} {w : Word} (h : encode i = .cmd w) : Statement i := .inl ⟨w, h⟩

theorem bus_form {i : Instr} {off : Nat} {wdata : Option Word}
    (h : encode i = .bus ⟨off, 32, wdata⟩) (hoff : off ≤ 0xFF) : Statement i :=
  .inr ⟨off, wdata, h, hoff⟩

theorem permFwd : Statement .permFwd := cmd_form rfl
theorem permInv : Statement .permInv := cmd_form rfl
theorem ctrXor (n : BitVec 5) : Statement (.ctrXor n) := cmd_form rfl
theorem cmdIllegal (w : Word) : Statement (.cmdIllegal w) := cmd_form rfl
theorem rdCmd : Statement .rdCmd := bus_form rfl (by decide)
theorem wrCmd (d : Word) : Statement (.wrCmd d) := bus_form rfl (by decide)
theorem rdStatus : Statement .rdStatus := bus_form rfl (by decide)
theorem wrStatus (d : Word) : Statement (.wrStatus d) := bus_form rfl (by decide)
theorem rdReserved08 (k : Fin 2) : Statement (.rdReserved08 k) :=
  bus_form rfl (by simp only [offWord]; omega)
theorem wrReserved08 (k : Fin 2) (d : Word) : Statement (.wrReserved08 k d) :=
  bus_form rfl (by simp only [offWord]; omega)
theorem rdKey (j : Fin 4) : Statement (.rdKey j) :=
  bus_form rfl (by simp only [offWord, baseKey]; omega)
theorem wrKey (j : Fin 4) (d : Word) : Statement (.wrKey j d) :=
  bus_form rfl (by simp only [offWord, baseKey]; omega)
theorem rdCtr (j : Fin 4) : Statement (.rdCtr j) :=
  bus_form rfl (by simp only [offWord, baseCtr]; omega)
theorem wrCtr (j : Fin 4) (d : Word) : Statement (.wrCtr j d) :=
  bus_form rfl (by simp only [offWord, baseCtr]; omega)
theorem rdIn (j : Fin 4) : Statement (.rdIn j) :=
  bus_form rfl (by simp only [offWord, baseIn]; omega)
theorem wrIn (j : Fin 4) (d : Word) : Statement (.wrIn j d) :=
  bus_form rfl (by simp only [offWord, baseIn]; omega)
theorem rdOut (j : Fin 4) : Statement (.rdOut j) :=
  bus_form rfl (by simp only [offWord, baseOut]; omega)
theorem wrOut (j : Fin 4) (d : Word) : Statement (.wrOut j d) :=
  bus_form rfl (by simp only [offWord, baseOut]; omega)
theorem rdReserved50 (k : Fin 4) : Statement (.rdReserved50 k) :=
  bus_form rfl (by simp only [offWord]; omega)
theorem wrReserved50 (k : Fin 4) (d : Word) : Statement (.wrReserved50 k d) :=
  bus_form rfl (by simp only [offWord]; omega)
theorem rdReserved60 (k : Fin 8) : Statement (.rdReserved60 k) :=
  bus_form rfl (by simp only [offWord]; omega)
theorem wrReserved60 (k : Fin 8) (d : Word) : Statement (.wrReserved60 k d) :=
  bus_form rfl (by simp only [offWord]; omega)
theorem rdReserved80 (k : Fin 32) : Statement (.rdReserved80 k) :=
  bus_form rfl (by simp only [offWord]; omega)
theorem wrReserved80 (k : Fin 32) (d : Word) : Statement (.wrReserved80 k d) :=
  bus_form rfl (by simp only [offWord]; omega)
theorem refusedUnaligned1 (h : Fin 64) (wdata : Option Word) :
    Statement (.refusedUnaligned1 h wdata) := bus_form rfl (by simp only [offWord]; omega)
theorem refusedUnaligned2 (h : Fin 64) (wdata : Option Word) :
    Statement (.refusedUnaligned2 h wdata) := bus_form rfl (by simp only [offWord]; omega)
theorem refusedUnaligned3 (h : Fin 64) (wdata : Option Word) :
    Statement (.refusedUnaligned3 h wdata) := bus_form rfl (by simp only [offWord]; omega)

end Sys2Proof.Laws.RequestForm
end

