-- ==== Sys2Proof/Tests/Slice0.lean ====
section
/-! SUPPORT. The model's own tests. Expected values are those of spec/95_test_vectors.md and of the
encoding tables; each test names its source. Below them, for every statement of
Certificates/Slice0/Obligations.lean that has hypotheses, a witness that meets them. -/

namespace Sys2Proof.Tests

open Sys2Proof.Machine

/-! ## WellFormed: each ground of CMD.ILLEGAL, and the words it may not carry -/

/-- 60_exceptions.md R192; 95_test_vectors.md 5.1, word 0x00000200: ERR 1. -/
theorem test_wf_rsv :
    (Instr.cmdIllegal 0x00000200#32).wellFormed = true := by decide

/-- 60_exceptions.md R192; 95_test_vectors.md 5.1, word 0x00000000: ERR 1. -/
theorem test_wf_op_zero :
    (Instr.cmdIllegal 0x00000000#32).wellFormed = true := by decide

/-- 60_exceptions.md R192; 95_test_vectors.md 5.1, word 0x00000004: ERR 1. -/
theorem test_wf_op_four :
    (Instr.cmdIllegal 0x00000004#32).wellFormed = true := by decide

/-- 60_exceptions.md R192; 95_test_vectors.md 5.1, word 0x00000011: ERR 1. -/
theorem test_wf_perm_len :
    (Instr.cmdIllegal 0x00000011#32).wellFormed = true := by decide

/-- 30_encoding.md R74: the word 0x00000001 belongs to another row. -/
theorem test_ill_formed_perm_fwd :
    (Instr.cmdIllegal 0x00000001#32).wellFormed = false := by decide

/-- 30_encoding.md R74: the word 0x00000002 belongs to another row. -/
theorem test_ill_formed_perm_inv :
    (Instr.cmdIllegal 0x00000002#32).wellFormed = false := by decide

/-- 30_encoding.md R74: the word 0x00000103 belongs to another row. -/
theorem test_ill_formed_ctr_xor :
    (Instr.cmdIllegal 0x00000103#32).wellFormed = false := by decide

/-- 30_encoding.md R74: the word 0x00000003 belongs to another row. -/
theorem test_ill_formed_ctr_xor_bad_len :
    (Instr.cmdIllegal 0x00000003#32).wellFormed = false := by decide

/-! ## Decoding: words written out from 30_encoding.md R72, R73, R74, R82 -/

/-- 30_encoding.md R72, R73. -/
theorem test_decode_permFwd :
    decodeTableWord 32 0b00000000000000000000000_00000_0001 = some .permFwd := by decide

/-- 30_encoding.md R72, R73. -/
theorem test_decode_permInv :
    decodeTableWord 32 0b00000000000000000000000_00000_0010 = some .permInv := by decide

/-- 30_encoding.md R72, R73. -/
theorem test_decode_ctrXor :
    decodeTableWord 32 0b00000000000000000000000_01111_0011 = some (.ctrXor 15#5) := by decide

/-- 30_encoding.md R72, R73. -/
theorem test_decode_ctrXor_len0 :
    decodeTableWord 32 0b00000000000000000000000_00000_0011 = some (.ctrXor 0#5) := by decide

/-- 30_encoding.md R72, R73. -/
theorem test_decode_cmdIllegal :
    decodeTableWord 32 0b00000000000000000000001_00001_0011 = some (.cmdIllegal 0x00000213#32) := by decide

/-- 30_encoding.md R72, R73. -/
theorem test_decode_cmdIllegal_op0 :
    decodeTableWord 32 0b00000000000000000000000_00000_0000 = some (.cmdIllegal 0#32) := by decide

/-- 30_encoding.md R72, R73. -/
theorem test_decode_rdCmd :
    decodeTableWord 16 0b0_0000_0000 = some .rdCmd := by decide

/-- 30_encoding.md R72, R73. -/
theorem test_decode_wrCmd :
    decodeTableWord 16 0b1_0000_0000 = some (.wrCmd 0#32) := by decide

/-- 30_encoding.md R72, R73. -/
theorem test_decode_rdStatus :
    decodeTableWord 16 0b0_0000_0100 = some .rdStatus := by decide

/-- 30_encoding.md R72, R73. -/
theorem test_decode_wrStatus :
    decodeTableWord 16 0b1_0000_0100 = some (.wrStatus 0#32) := by decide

/-- 30_encoding.md R72, R73. -/
theorem test_decode_rdReserved08 :
    decodeTableWord 16 0b0_0000_1100 = some (.rdReserved08 1) := by decide

/-- 30_encoding.md R72, R73. -/
theorem test_decode_wrReserved08 :
    decodeTableWord 16 0b1_0000_1000 = some (.wrReserved08 0 0#32) := by decide

/-- 30_encoding.md R72, R73. -/
theorem test_decode_rdKey :
    decodeTableWord 16 0b0_0001_0100 = some (.rdKey 1) := by decide

/-- 30_encoding.md R72, R73. -/
theorem test_decode_wrKey :
    decodeTableWord 16 0b1_0001_1000 = some (.wrKey 2 0#32) := by decide

/-- 30_encoding.md R72, R73. -/
theorem test_decode_rdCtr :
    decodeTableWord 16 0b0_0010_1100 = some (.rdCtr 3) := by decide

/-- 30_encoding.md R72, R73. -/
theorem test_decode_wrCtr :
    decodeTableWord 16 0b1_0010_0100 = some (.wrCtr 1 0#32) := by decide

/-- 30_encoding.md R72, R73. -/
theorem test_decode_rdIn :
    decodeTableWord 16 0b0_0011_1000 = some (.rdIn 2) := by decide

/-- 30_encoding.md R72, R73. -/
theorem test_decode_wrIn :
    decodeTableWord 16 0b1_0011_1100 = some (.wrIn 3 0#32) := by decide

/-- 30_encoding.md R72, R73. -/
theorem test_decode_rdOut :
    decodeTableWord 16 0b0_0100_0100 = some (.rdOut 1) := by decide

/-- 30_encoding.md R72, R73. -/
theorem test_decode_wrOut :
    decodeTableWord 16 0b1_0100_0000 = some (.wrOut 0 0#32) := by decide

/-- 30_encoding.md R72, R73. -/
theorem test_decode_rdReserved50 :
    decodeTableWord 16 0b0_0101_1100 = some (.rdReserved50 3) := by decide

/-- 30_encoding.md R72, R73. -/
theorem test_decode_wrReserved50 :
    decodeTableWord 16 0b1_0101_0100 = some (.wrReserved50 1 0#32) := by decide

/-- 30_encoding.md R72, R73. -/
theorem test_decode_rdReserved60 :
    decodeTableWord 16 0b0_0110_0100 = some (.rdReserved60 1) := by decide

/-- 30_encoding.md R72, R73. -/
theorem test_decode_wrReserved60 :
    decodeTableWord 16 0b1_0111_1100 = some (.wrReserved60 7 0#32) := by decide

/-- 30_encoding.md R72, R73. -/
theorem test_decode_rdReserved80 :
    decodeTableWord 16 0b0_1000_0100 = some (.rdReserved80 1) := by decide

/-- 30_encoding.md R72, R73. -/
theorem test_decode_wrReserved80 :
    decodeTableWord 16 0b1_1111_1100 = some (.wrReserved80 31 0#32) := by decide

/-- 30_encoding.md R72, R73. -/
theorem test_decode_refusedUnaligned1 :
    decodeTableWord 16 0b0_0000_0001 = some (.refusedUnaligned1 0 none) := by decide

/-- 30_encoding.md R72, R73. -/
theorem test_decode_refusedUnaligned2 :
    decodeTableWord 16 0b1_0001_0110 = some (.refusedUnaligned2 5 (some 0#32)) := by decide

/-- 30_encoding.md R72, R73. -/
theorem test_decode_refusedUnaligned3 :
    decodeTableWord 16 0b0_1111_1111 = some (.refusedUnaligned3 63 none) := by decide

/-- 20_memory.md R57. -/
theorem test_decode_wide :
    decode (.bus ⟨0x10, 64, none⟩) = .error .notWordAccess := by decide

/-- 20_memory.md R51, R58. -/
theorem test_decode_outside :
    decode (.bus ⟨0x100, 32, none⟩) = .error .outOfWindow := by decide

/-- 20_memory.md R52: KEY[3] is at 0x1C. -/
theorem test_encode_wrKey3 :
    encode (.wrKey 3 7#32) = .bus ⟨0x1C, 32, some 7#32⟩ := by decide

/-- 30_encoding.md R82. -/
theorem test_encode_ctrXor16 :
    encode (.ctrXor 16#5) = .cmd 0x00000103#32 := by decide

/-! ## Word operators, rounds and byte orders -/

/-- 95_test_vectors.md section 2. -/
theorem test_add32_wraps : add32 0xFFFFFFFF#32 1#32 = 0#32 := by decide

/-- 95_test_vectors.md section 2. -/
theorem test_sub32 : sub32 0x12345678#32 0x9ABCDEF0#32 = 0x77777788#32 ∧
    sub32 0#32 1#32 = 0xFFFFFFFF#32 := by decide

/-- 95_test_vectors.md section 2: amounts 7, 37 and 32. -/
theorem test_rotl32 : rotl32 0x12345678#32 7 = 0x1A2B3C09#32 ∧
    rotl32 0x12345678#32 37 = 0x468ACF02#32 ∧ rotl32 0x80000001#32 32 = 0x80000001#32 := by decide

/-- 95_test_vectors.md section 2: amounts 13, 5 and 0. -/
theorem test_rotr32 : rotr32 0x12345678#32 13 = 0xB3C091A2#32 ∧
    rotr32 0x80000001#32 5 = 0x0C000000#32 ∧ rotr32 0x80000001#32 0 = 0x80000001#32 := by decide

/-- 95_test_vectors.md section 3.2: the first round of PERM_FWD on KATKEY and a zero block. -/
theorem test_roundFwd : roundFwd ⟨0x33323130#32, 0x37363534#32, 0x31303938#32, 0x35343332#32⟩ =
    ⟨0xb8bbc8c7#32, 0xa4735c0a#32, 0x2d4cf313#32, 0x5370228d#32⟩ := by decide

/-- 95_test_vectors.md section 3.4. -/
theorem test_roundInv : roundInv ⟨0x9baf4bf9#32, 0x472099e4#32, 0x123b1c9c#32, 0xe23120dd#32⟩ =
    ⟨0x98f8b8af#32, 0xe60d89dc#32, 0x86dfd1cf#32, 0xd704c755#32⟩ := by decide

/-- 95_test_vectors.md section 6.1: a carry out of byte 12 into byte 11. -/
theorem test_inc128_carry : inc128 ⟨0#32, 0#32, 0#32, 0xFFFFFFFF#32⟩ =
    ⟨0#32, 0#32, 0x01000000#32, 0#32⟩ := by decide

/-- 95_test_vectors.md section 6.1: the row of the counter bytes 00 01 ... 0f. -/
theorem test_inc128_seq : inc128 ⟨0x03020100#32, 0x07060504#32, 0x0B0A0908#32, 0x0F0E0D0C#32⟩ =
    ⟨0x03020100#32, 0x07060504#32, 0x0B0A0908#32, 0x100E0D0C#32⟩ := by decide

/-! ## Instructions and steps on small states -/

/-- The words of KATKEY (95_test_vectors.md, notation). -/
def katKey : Quad := ⟨0x33323130#32, 0x37363534#32, 0x31303938#32, 0x35343332#32⟩

/-- An idle block with KATKEY loaded, and no counter. -/
def keyLoaded : State := { State.reset with key := katKey, keyWr := 0b1111#4 }

/-- An idle block with KATKEY and counter 0 loaded. -/
def bothLoaded : State := { keyLoaded with ctrWr := 0b1111#4 }

/-- PERM_FWD of a zero block under KATKEY, just accepted (40_host_interface.md R104, example). -/
def permRunning : State := { keyLoaded with v := katKey, busy := true }

/-- The same command after its 16 rounds (95_test_vectors.md section 3.3, RC = 16). -/
def permDue : State :=
  { permRunning with v := ⟨0x9baf4bf9#32, 0x472099e4#32, 0x123b1c9c#32, 0xe23120dd#32⟩, rc := 16 }

/-- CTR_XOR 3 of "foo" with counter 0 under KATKEY after its 16 rounds (section 6.2, row X1; the
counter block is zero, so V is that of section 3.3). -/
def ctrDue : State :=
  { permDue with opl := .ctrXor, lenl := 3#5, ctrWr := 0b1111#4, inp := ⟨0x006F6F66#32, 0#32, 0#32, 0#32⟩ }

/-- A view of the next state, if there is one. -/
def after {α : Type} (a : Answer) (f : State → α) : Option α :=
  match a with
  | .next t => some (f t)
  | .fault _ => none
  | .refused _ => none

/-- 95_test_vectors.md section 5.1, word 1, state (b): accepted; section 5.2: STATUS 0x101. -/
theorem test_permFwd_accepted :
    after (exec .permFwd keyLoaded) statusWord = some 0x00000101#32 := by decide

/-- 40_host_interface.md R104, example: V after the accept. -/
theorem test_permFwd_whitens : after (exec .permFwd keyLoaded) (·.v) = some katKey := by decide

/-- 95_test_vectors.md section 5.1, word 2, state (a): MISSING_KEY. -/
theorem test_permInv_no_key :
    after (exec .permInv State.reset) statusWord = some 0x00000030#32 := by decide

/-- 95_test_vectors.md section 5.1, word 2, state (b). -/
theorem test_permInv_accepted :
    after (exec .permInv keyLoaded) (fun t => (t.busy, t.opl)) = some (true, .permInv) := by decide

/-- 95_test_vectors.md section 5.2: MISSING_COUNTER_STATE with the key loaded. -/
theorem test_ctrXor_no_counter :
    after (exec (.ctrXor 16#5) keyLoaded) statusWord = some 0x00000140#32 := by decide

/-- 95_test_vectors.md section 5.1: LEN 17 rejects with INVALID_LENGTH, both loaded. -/
theorem test_ctrXor_len17 :
    after (exec (.ctrXor 17#5) bothLoaded) statusWord = some 0x00000320#32 := by decide

/-- 95_test_vectors.md section 5.2: ILLEGAL_COMMAND, both loaded. -/
theorem test_cmdIllegal :
    after (exec (.cmdIllegal 0x00000213#32) bothLoaded) statusWord = some 0x00000310#32 := by decide

/-- 95_test_vectors.md section 5.1, word 0x203: RSV before LEN. -/
theorem test_wrCmd_rsv_first :
    after (exec (.wrCmd 0x00000203#32) State.reset) (·.err) = some .illegalCommand := by decide

/-- 95_test_vectors.md section 5.1, word 0x103, state (c): accepted with LENL = 16. -/
theorem test_wrCmd_ctr16 :
    after (exec (.wrCmd 0x00000103#32) bothLoaded) (fun t => (statusWord t, t.lenl)) =
      some (0x00000301#32, 16#5) := by decide

/-- 95_test_vectors.md section 5.3: RD.CMD returns 0. -/
theorem test_rdCmd : after (exec .rdCmd bothLoaded) (·.reads) = some [0#32] := by decide

/-- 95_test_vectors.md section 5.2: key and counter loaded, idle. -/
theorem test_rdStatus : after (exec .rdStatus bothLoaded) (·.reads) = some [0x00000300#32] := by decide

/-- 95_test_vectors.md P5, row 6: KEY is write-only. -/
theorem test_rdKey : after (exec (.rdKey 0) keyLoaded) (·.reads) = some [0#32] := by decide

/-- 95_test_vectors.md section 6.2, row X1: CTR[3] after the commit. -/
theorem test_rdCtr :
    after (exec (.rdCtr 3) { bothLoaded with ctr := ⟨0#32, 0#32, 0#32, 0x01000000#32⟩ }) (·.reads) =
      some [0x01000000#32] := by decide

/-- 95_test_vectors.md section 5.3: IN is readable while BUSY = 1. -/
theorem test_rdIn : after (exec (.rdIn 0) { ctrDue with rc := 3 }) (·.reads) =
    some [0x006F6F66#32] := by decide

/-- 40_host_interface.md R97: OUT while BUSY = 1 is the value from before the commit. -/
theorem test_rdOut : after (exec (.rdOut 0) permDue) (·.reads) = some [0#32] := by decide

/-- 95_test_vectors.md P5, row 13. -/
theorem test_rdReserved : after (exec (.rdReserved50 0) permRunning) (·.reads) = some [0#32] := by
  decide

/-- 95_test_vectors.md P1, row 4: the fourth key word sets KEY_VALID. -/
theorem test_wrKey_valid :
    after (exec (.wrKey 3 0x35343332#32) { State.reset with keyWr := 0b0111#4 }) statusWord =
      some 0x00000100#32 := by decide

/-- 95_test_vectors.md P3, row 17: dropped, ERR 5. -/
theorem test_wrCtr_dropped :
    after (exec (.wrCtr 0 0x12345678#32) { ctrDue with rc := 2 }) (fun t => (statusWord t, t.ctr.w0)) =
      some (0x00000351#32, 0#32) := by decide

/-- 40_host_interface.md R102: IN has no write mask. -/
theorem test_wrIn :
    after (exec (.wrIn 0 0x006F6F66#32) State.reset) (fun t => (t.inp.w0, statusWord t)) =
      some (0x006F6F66#32, 0#32) := by decide

/-- 95_test_vectors.md P5, row 11: no effect, no error, while BUSY = 1. -/
theorem test_wrStatus_ignored :
    after (exec (.wrStatus 0xFFFFFFFF#32) permRunning) statusWord = some 0x00000101#32 := by decide

/-- 95_test_vectors.md section 3.3: the state after the first round step. -/
theorem test_round_step :
    after (step permRunning) (fun t => (t.v, t.rc)) =
      some (⟨0xb8bbc8c7#32, 0xa4735c0a#32, 0x2d4cf313#32, 0x5370228d#32⟩, 1) := by decide

/-- 95_test_vectors.md section 3.3: the commit, and section 5.2: STATUS 0x102. -/
theorem test_commit_perm :
    after (step permDue) (fun t => (t.out, statusWord t)) =
      some (⟨0xa89d7ac9#32, 0x7016acd0#32, 0x230b25a4#32, 0xd70513ef#32⟩, 0x00000102#32) := by decide

/-- 95_test_vectors.md section 6.2, row X1: OUT, the counter and STATUS. -/
theorem test_commit_ctr :
    after (step ctrDue) (fun t => (t.out, t.ctr, statusWord t)) =
      some (⟨0x00F215AF#32, 0#32, 0#32, 0#32⟩, ⟨0#32, 0#32, 0#32, 0x01000000#32⟩, 0x00000302#32) := by
  decide

/-- 95_test_vectors.md P5, rows 16 to 19: reset abandons the command with no commit. -/
theorem test_reset_aborts :
    after (step { permDue with pending := [.reset], turns := [.host] })
      (fun t => (statusWord t, t.out, t.key)) = some (0#32, zeroQuad, zeroQuad) := by decide

/-- 40_host_interface.md R108: refused by name. -/
theorem test_step_refuses :
    step { State.reset with pending := [.request (.bus ⟨0x101, 32, none⟩)] } =
      .refused .unalignedOrOutOfWindowOffset := rfl

/-- The first instruction after reset: `perm.fwd` with no key (95_test_vectors.md section 5.1 (a)). -/
theorem test_first_instruction :
    after (step (State.reset.withFetchWord 32 0x00000001)) statusWord = some 0x00000030#32 := by decide

/-! ## Witnesses: a state and operands that meet the hypotheses of each statement -/

/-- ResetClearsTheBlock. -/
theorem witness_reset_turn : let s := { permDue with pending := [.reset, .wait], turns := [.host] }
    nextAgent s = .host ∧ s.pending = .reset :: [.wait] := by decide

/-- StepKeepsInvariant and CommitIsThePermutation: a running command, and one due to commit. -/
theorem witness_inv_running : BlockInv permRunning ∧ (after (step permRunning) (·.rc) = some 1) := by decide

/-- CommitIsThePermutation: PERM_FWD at its commit meets the invariant. -/
theorem witness_commit_perm : BlockInv permDue ∧ CommitsNext permDue ∧ permDue.opl = .permFwd := by
  decide +kernel

/-- CommitIsThePermutation: PERM_INV at its commit, on the all-zero fixed point (R129). -/
theorem witness_commit_inv :
    let s := { permDue with key := zeroQuad, v := zeroQuad, opl := .permInv }
    BlockInv s ∧ CommitsNext s ∧ s.opl = .permInv := by decide +kernel

/-- CommitIsThePermutation: CTR_XOR at its commit. -/
theorem witness_commit_ctr : BlockInv ctrDue ∧ CommitsNext ctrDue ∧ ctrDue.opl = .ctrXor := by
  decide +kernel

/-- DecodeOfEncode. -/
theorem witness_well_formed : (Instr.cmdIllegal 0xFFFFFFFF#32).wellFormed = true := by decide

/-- EncodeOfDecode. -/
theorem witness_decodes : decode (.bus ⟨0xFC, 32, some 5#32⟩) = .ok (.wrReserved80 31 5#32) := by decide

/-- StepRunsDecodedInstruction: the host's turn while the core runs. -/
theorem witness_step_runs :
    let s := { permRunning with pending := [.request (.bus ⟨0x04, 32, none⟩)], turns := [.host] }
    nextAgent s = .host ∧ decode (.bus ⟨0x04, 32, none⟩) = .ok .rdStatus ∧
    after (step s) (·.reads) = some [0x00000101#32] := by decide

/-- PlacedWordRunsNext. -/
theorem witness_placed_word : decodeTableWord 16 0x1FC = some (.wrReserved80 31 0#32) := by decide

/-- OnlyTransactionsAreTaken: the last aligned offset is taken, the ones past it are refused. -/
theorem witness_transactions :
    (after (takeRequest (.bus ⟨0xFC, 32, none⟩) State.reset) (·.reads) = some [0#32]) ∧
    decode (.bus ⟨0xFD, 32, none⟩) = .ok (.refusedUnaligned1 63 none) ∧
    decode (.bus ⟨0x100, 32, none⟩) = .error .outOfWindow ∧
    decode (.bus ⟨0xFC, 16, none⟩) = .error .notWordAccess := by decide

/-- KeyWrite, CounterWrite, InputWrite, WindowWritesAreIdempotent: both cases of BUSY. -/
theorem witness_window_writes :
    keyLoaded.busy = false ∧ permRunning.busy = true ∧
    (after (exec (.wrKey 3 7#32) keyLoaded) (fun t => wordAt t.key 3) = some 7#32) ∧
    (after (exec (.wrCtr 3 7#32) keyLoaded) (fun t => (wordAt t.ctr 3, t.ctrWr)) = some (7#32, 0b1000#4)) ∧
    (after (exec (.wrIn 0 7#32) permRunning) (fun t => (wordAt t.inp 0, t.err)) = some (0#32, .busy)) := by
  decide

/-- BusyRuleOverTheWindow: the offsets where its clauses meet, while busy. -/
theorem witness_busy_rule :
    (after (takeRequest (writeReq 0x00 1#32) permRunning) (·.err) = some .busy) ∧
    (after (takeRequest (writeReq 0x0C 1#32) permRunning) (·.err) = some .none) ∧
    (after (takeRequest (writeReq 0x10 1#32) permRunning) (·.err) = some .busy) ∧
    (after (takeRequest (writeReq 0x3C 1#32) permRunning) (·.err) = some .busy) ∧
    (after (takeRequest (writeReq 0x40 1#32) permRunning) (·.err) = some .none) := by decide

/-- BusyRuleOverTheWindow: the same offsets while idle, each in one clause. -/
theorem witness_idle_writes :
    decode (writeReq 0x00 1#32) = .ok (.wrCmd 1#32) ∧
    decode (writeReq 0x0C 1#32) = .ok (.wrReserved08 1 1#32) ∧
    decode (writeReq 0x10 1#32) = .ok (.wrKey 0 1#32) ∧
    decode (writeReq 0x2C 1#32) = .ok (.wrCtr 3 1#32) ∧
    decode (writeReq 0x3C 1#32) = .ok (.wrIn 3 1#32) ∧
    decode (writeReq 0x40 1#32) = .ok (.wrOut 0 1#32) ∧
    decode (writeReq 0xFC 1#32) = .ok (.wrReserved80 31 1#32) := by decide

/-- CommandWrite: a word its decode rejects. -/
theorem witness_command_rejected :
    keyLoaded.busy = false ∧ decodeCommand 0x00000003#32 = .error .invalidLength := by
  exact ⟨rfl, rfl⟩

/-- CommandWrite: legal words with no key, with no counter, and with both. -/
theorem witness_command_checks :
    decodeCommand 0x00000013#32 = .ok (.ctrXor 1#5) ∧ decodeCommand 0x00000103#32 = .ok (.ctrXor 16#5) ∧
    State.reset.busy = false ∧ State.reset.keyWr ≠ 0b1111#4 ∧
    keyLoaded.keyWr = 0b1111#4 ∧ keyLoaded.ctrWr ≠ 0b1111#4 ∧
    bothLoaded.keyWr = 0b1111#4 ∧ bothLoaded.ctrWr = 0b1111#4 := by
  exact ⟨rfl, rfl, rfl, by decide, rfl, by decide, rfl, rfl⟩

/-- PermutationCommands, PermutationCommandsEndToEnd: an idle block with a full key; one without; a
busy one. -/
theorem witness_perm_commands :
    keyLoaded.busy = false ∧ keyLoaded.keyWr = 0b1111#4 ∧ keyLoaded.turns = [] ∧
    State.reset.busy = false ∧ State.reset.keyWr ≠ 0b1111#4 ∧ permRunning.busy = true := by decide

/-- CounterModeCommand, CounterModeEndToEnd: the bounds of the legal lengths, and both masks full. -/
theorem witness_ctr_commands :
    bothLoaded.busy = false ∧ bothLoaded.keyWr = 0b1111#4 ∧ bothLoaded.ctrWr = 0b1111#4 ∧
    bothLoaded.turns = [] ∧ (1#5).toNat = 1 ∧ (16#5).toNat = 16 ∧ (17#5).toNat = 17 ∧
    (after (exec (.ctrXor 1#5) bothLoaded) (·.busy) = some true) ∧
    (after (exec (.ctrXor 16#5) bothLoaded) (·.busy) = some true) ∧
    (after (exec (.ctrXor 0#5) bothLoaded) (·.err) = some .invalidLength) := by decide

/-- IllegalCommandRejects, both cases of BUSY. -/
theorem witness_illegal_command :
    (Instr.cmdIllegal 0x00000000#32).wellFormed = true ∧ bothLoaded.busy = false ∧
    (after (exec (.cmdIllegal 0#32) permRunning) (·.err) = some .busy) := by decide

/-- InstructionFrame and NoInstructionDisturbsTheCore. -/
theorem witness_frame : permRunning.busy = true ∧
    (after (exec (.wrIn 2 9#32) permRunning) (fun t => (t.err, t.inp)) = some (.busy, zeroQuad)) := by
  decide

/-- CoreRoundStep, at the first and the last round. -/
theorem witness_round_step :
    nextAgent permRunning = .core ∧ permRunning.busy = true ∧ permRunning.rc.val < 16 ∧
    (after (step { permRunning with rc := 15 }) (fun t => (t.rc, t.busy)) = some (16, true)) := by decide

/-- CorePermutationCommit and CoreCounterCommit. -/
theorem witness_commit_steps :
    nextAgent permDue = .core ∧ permDue.busy = true ∧ permDue.rc.val = 16 ∧ permDue.opl ≠ .ctrXor ∧
    nextAgent ctrDue = .core ∧ ctrDue.busy = true ∧ ctrDue.rc.val = 16 ∧ ctrDue.opl = .ctrXor := by decide

/-- IdleCoreDoesNothing. -/
theorem witness_idle_core :
    let s := { keyLoaded with turns := [.core] }
    nextAgent s = .core ∧ s.busy = false := by decide

/-- SeventeenCoreSteps. -/
theorem witness_seventeen_steps : bothLoaded.busy = false ∧ bothLoaded.turns = [] ∧
    (after (exec (.wrCmd 0x00000103#32) bothLoaded) (·.busy) = some true) := by decide

/-- RotationLaws, at both ends of its range of amounts. -/
theorem witness_rotation : rotl32 0x80000001#32 0 = rotr32 0x80000001#32 32 ∧
    rotl32 0x80000001#32 32 = rotr32 0x80000001#32 0 := by decide

/-- LoadPseudoInstructions: an idle block, and each clause at its ends: a full key, the greatest
counter, and `ldin` of 0, 3 and 16 bytes (95_test_vectors.md P1, section 6.1, and row X1). -/
theorem witness_loads : State.reset.busy = false ∧
    (after (runHost (hostLdkey (bytesOf katKey)) State.reset) (fun t => (t.key, t.keyWr)) =
      some (katKey, 0b1111#4)) ∧
    (after (runHost (hostLdctr (-1#128)) State.reset) (fun t => (t.ctr.w0, t.ctr.w3, t.ctrWr)) =
      some (0xFFFFFFFF#32, 0xFFFFFFFF#32, 0b1111#4)) ∧
    (after (runHost (hostLdin []) ctrDue) (·.inp) = some ctrDue.inp) ∧
    (after (runHost (hostLdin []) { ctrDue with busy := false }) (·.inp) = some zeroQuad) ∧
    (after (runHost (hostLdin [0x66#8, 0x6F#8, 0x6F#8]) State.reset) (·.inp.w0) =
      some 0x006F6F66#32) ∧
    (after (runHost (hostLdin (List.ofFn (bytesOf katKey))) State.reset) (·.inp) = some katKey) := by
  decide

/-- StreamOutputAndCounter, StreamInvolution. -/
theorem witness_stream : bothLoaded.busy = false ∧ bothLoaded.keyWr = 0b1111#4 ∧
    bothLoaded.ctrWr = 0b1111#4 ∧ 16 * 1 + (0 : Fin 16).val < (List.replicate 17 0#8).length := by decide

/-- The whole-machine rules: a WR.KEY the host takes while idle. -/
theorem witness_takes_key :
    let s := { State.reset with pending := [.request (.bus ⟨0x10, 32, some 7#32⟩)] }
    nextAgent s = .host ∧ decode (.bus ⟨0x10, 32, some 7#32⟩) = .ok (.wrKey 0 7#32) ∧
    (after (step s) (fun t => (t.key, t.keyWr)) = some (⟨7#32, 0#32, 0#32, 0#32⟩, 0b0001#4)) := by decide

/-- OnlyTheseWriteBusyAndDone, ThreeWaysErrChanges: a command the host presents while idle, accepted
and rejected. -/
theorem witness_presents :
    (after (step { keyLoaded with pending := [.request (.cmd 0x00000002#32)] })
      (fun t => (t.busy, t.err)) = some (true, .none)) ∧
    (after (step { keyLoaded with pending := [.request (.cmd 0x00000013#32)] })
      (fun t => (t.busy, t.err)) = some (false, .missingCounterState)) := by decide

/-- HiddenStateIsNotObservable: two idle states with different hidden registers. -/
theorem witness_same_to_host :
    SameToHost keyLoaded { keyLoaded with v := katKey, rc := 9, opl := .ctrXor, lenl := 3#5 } := by decide

/-- KeyReachesTheHostOnlyByCommits: two running states with different keys. -/
theorem witness_same_but_key :
    SameButKey permRunning { permRunning with key := zeroQuad, v := zeroQuad } ∧
    ¬ CommitsNext permRunning := by decide

/-- PollingEndsUnderFairness: the host polls twice before the core moves. -/
theorem witness_polling :
    ({ permRunning with pending := [.wait], turns := [.host, .host] } : State).pending = [.wait] ∧
    (after (step { permRunning with pending := [.wait], turns := [.host, .host] })
      (fun t => (t.pending, t.reads)) = some ([.wait], [0x00000101#32])) := by decide

/-- HostTurnWhileBusy: turns of the host while the core runs, with a reset, a dropped write, a poll,
and with nothing to issue. -/
theorem witness_host_turn_busy :
    let s := { permRunning with turns := [.host], pending := [.reset] }
    (nextAgent s = .host ∧ s.busy = true ∧ HostDoes s .reset ∧
      after (step s) (·.key) = some zeroQuad) ∧
    (after (step { s with pending := [.request (.cmd 1#32)] }) (fun t => (t.err, t.v, t.pending)) =
      some (.busy, katKey, [])) ∧
    (after (step { s with pending := [.wait] }) (fun t => (t.err, t.v, t.pending)) =
      some (.none, katKey, [.wait])) ∧
    (after (step { s with pending := [] }) (fun t => (t.err, t.v)) = some (.none, katKey)) := by decide

/-- WaitPollsStatus: the poll that ends, at an idle block with more to do after it. -/
theorem witness_wait_ends :
    let s := { keyLoaded with pending := [.wait, .reset] }
    nextAgent s = .host ∧ s.pending = .wait :: [.reset] ∧
    (after (step s) (fun t => (t.pending, t.reads)) = some ([.reset], [0x00000100#32])) := by decide

end Sys2Proof.Tests
end

