-- ==== Sys2Proof/Proofs/Packing.lean ====
section
/-! PROOF. The little-endian packing (00_scope.md R14, 20_memory.md R54, R56): first the four bytes
of one word, then the four words of a window, then the two round trips. -/

namespace Sys2Proof.Proofs

open Sys2Proof.Machine

/-! ## The bytes of one word -/

theorem byteOfWord_toNat (w : Word) (k : Nat) :
    (byteOfWord w k).toNat = w.toNat / 2 ^ (8 * k) % 2 ^ 8 := by
  rw [byteOfWord, BitVec.extractLsb'_toNat, Nat.shiftRight_eq_div_pow]

theorem toNat_append_eq_add {m n : Nat} (x : BitVec m) (y : BitVec n) :
    (x ++ y).toNat = x.toNat * 2 ^ n + y.toNat := by
  rw [BitVec.toNat_append, ← Nat.shiftLeft_add_eq_or_of_lt y.isLt, Nat.shiftLeft_eq]

theorem le32_toNat (b0 b1 b2 b3 : Byte) :
    (le32 b0 b1 b2 b3).toNat =
      b0.toNat + 2 ^ 8 * b1.toNat + 2 ^ 16 * b2.toNat + 2 ^ 24 * b3.toNat := by
  simp only [le32, toNat_append_eq_add]
  omega

/-- The bytes are taken as a family, so that the index may be an expression in a byte offset. -/
theorem byteOfWord_le32 (f : Fin 4 → Byte) (k : Fin 4) :
    byteOfWord (le32 (f 0) (f 1) (f 2) (f 3)) k = f k := by
  apply BitVec.eq_of_toNat_eq
  rw [byteOfWord_toNat, le32_toNat]
  match k with
  | 0 | 1 | 2 | 3 => dsimp; omega

@[simp] theorem le32_byteOfWord (w : Word) :
    le32 (byteOfWord w 0) (byteOfWord w 1) (byteOfWord w 2) (byteOfWord w 3) = w := by
  apply BitVec.eq_of_toNat_eq
  simp only [le32_toNat, byteOfWord_toNat]
  omega

/-! ## The words and bytes of a window -/

theorem wordAt_wordsOf (b : Bytes16) (j : Fin 4) :
    wordAt (wordsOf b) j =
      le32 (b ⟨4 * j.val, by omega⟩) (b ⟨4 * j.val + 1, by omega⟩)
        (b ⟨4 * j.val + 2, by omega⟩) (b ⟨4 * j.val + 3, by omega⟩) := by
  match j with
  | 0 | 1 | 2 | 3 => rfl

theorem bytesOf_at (q : Quad) (j k : Fin 4) :
    bytesOf q ⟨4 * j.val + k.val, by omega⟩ = byteOfWord (wordAt q j) k := by
  have hj : (4 * j.val + k.val) / 4 = j.val := by omega
  have hk : (4 * j.val + k.val) % 4 = k.val := by omega
  simp only [bytesOf, hj, hk]

@[simp] theorem bytesOf_wordsOf (b : Bytes16) : bytesOf (wordsOf b) = b := by
  funext i
  have hi : 4 * (i.val / 4) + i.val % 4 = i.val := Nat.div_add_mod i.val 4
  calc bytesOf (wordsOf b) i
    _ = byteOfWord (wordAt (wordsOf b) ⟨i.val / 4, by omega⟩) (i.val % 4) := rfl
    _ = b ⟨4 * (i.val / 4) + i.val % 4, by omega⟩ := by
      rw [wordAt_wordsOf]
      exact byteOfWord_le32 (fun k => b ⟨4 * (i.val / 4) + k.val, by omega⟩)
        ⟨i.val % 4, by omega⟩
    _ = b i := congrArg b (Fin.ext hi)

@[simp] theorem wordsOf_bytesOf (q : Quad) : wordsOf (bytesOf q) = q := by
  refine Laws.quad_ext fun j => ?_
  have hbyte := bytesOf_at q j
  rw [wordAt_wordsOf, ← le32_byteOfWord (wordAt q j)]
  exact congr (congr (congr (congrArg le32 (hbyte 0)) (hbyte 1)) (hbyte 2)) (hbyte 3)

/-- Settles O42: the value of a word is read off `le32`, and the two round trips hold byte by byte
and word by word. -/
theorem packingIsLittleEndian : Obligations.PackingIsLittleEndian := by
  refine ⟨bytesOf_wordsOf, wordsOf_bytesOf, fun b j => ?_⟩
  rw [wordAt_wordsOf, le32_toNat]

end Sys2Proof.Proofs
end

