-- ==== Sys2Proof/Proofs/CounterView.lean ====
section
/-! PROOF. The integer view of CTR (10_state.md R24): BE128 (00_scope.md R14) as a sum over bytes and
over words, and its two round trips, from which those of the CTR words follow by the packing. -/

namespace Sys2Proof.Proofs

open Sys2Proof.Machine

/-! ## BE128 on bytes -/

theorem be128_toNat (b : Bytes16) :
    (be128 b).toNat =
      ((List.finRange 16).map fun i => (b i).toNat * 2 ^ (8 * (15 - i.val))).sum := by
  rw [← Fin.sum_univ_def]
  simp only [be128, toNat_append_eq_add, Fin.sum_univ_ofNat, Fin.coe_ofNat_eq_mod]
  ring

/-- Four bytes of the counter, the first the most significant, are a word packed in reverse. -/
theorem be128_toNat_le32 (b : Bytes16) :
    (be128 b).toNat =
      (le32 (b 3) (b 2) (b 1) (b 0)).toNat * 2 ^ 96 +
      (le32 (b 7) (b 6) (b 5) (b 4)).toNat * 2 ^ 64 +
      (le32 (b 11) (b 10) (b 9) (b 8)).toNat * 2 ^ 32 +
      (le32 (b 15) (b 14) (b 13) (b 12)).toNat := by
  simp only [be128, le32, toNat_append_eq_add]
  ring

@[simp] theorem be128_be128inv (c : BitVec 128) : be128 (be128inv c) = c := by
  simp (disch := decide) only [be128, be128inv, BitVec.extractLsb'_append_extractLsb'_eq_extractLsb']
  exact BitVec.extractLsb'_eq_self

@[simp] theorem be128inv_be128 (b : Bytes16) : be128inv (be128 b) = b := by
  funext i
  fin_cases i <;>
    simp (disch := decide) only [be128, be128inv, BitVec.extractLsb'_append_eq_of_add_le,
      BitVec.extractLsb'_append_eq_of_le] <;>
    exact BitVec.extractLsb'_eq_self

/-! ## The counter words -/

@[simp] theorem counterValue_counterWords (c : BitVec 128) : counterValue (counterWords c) = c := by
  rw [counterValue, counterWords, bytesOf_wordsOf, be128_be128inv]

@[simp] theorem counterWords_counterValue (q : Quad) : counterWords (counterValue q) = q := by
  rw [counterValue, counterWords, be128inv_be128, wordsOf_bytesOf]

@[simp] theorem counterValue_inc128 (q : Quad) :
    counterValue (inc128 q) = counterValue q + 1#128 := by
  rw [inc128, counterValue_counterWords]

theorem byteOfWord_extractLsb' (c : BitVec 128) (start : Nat) {k : Nat} (hk : k < 4) :
    byteOfWord (c.extractLsb' start 32) k = c.extractLsb' (start + 8 * k) 8 := by
  ext i hi
  have hbit : 8 * k + i < 32 := by omega
  simp [byteOfWord, hbit, Nat.add_assoc]

theorem counterWords_eq_bswap32 (c : BitVec 128) :
    counterWords c = ⟨bswap32 (c.extractLsb' 96 32), bswap32 (c.extractLsb' 64 32),
      bswap32 (c.extractLsb' 32 32), bswap32 (c.extractLsb' 0 32)⟩ := by
  simp (disch := decide) only [bswap32, byteOfWord_extractLsb']
  rfl

/-- Settles O43: the sums are BE128's, and the views undo each other since BE128 and the packing
do. -/
theorem counterIsBigEndian : Obligations.CounterIsBigEndian :=
  ⟨fun q => be128_toNat_le32 (bytesOf q), fun q => be128_toNat (bytesOf q),
    fun c => ⟨counterValue_counterWords c, counterWords_eq_bswap32 c⟩, counterWords_counterValue⟩

end Sys2Proof.Proofs
end

