-- ==== Sys2Proof/Proofs/StepRules.lean ====
section
/-! PROOF. One step seen from the registers of the block: the effect it has, with what the host had
to present for it (10_state.md R29, R30, 40_host_interface.md R99 to R105). The safety rules and the
invariant split on this effect and on nothing else. -/

namespace Sys2Proof.Proofs

open Sys2Proof.Machine Sys2Proof.Laws

/-! ## What presents a command -/

/-- The errors a command word can decode to (30_encoding.md R77). -/
theorem decodeCommand_error {w : Word} {code : ErrCode} (h : decodeCommand w = .error code) :
    code = .illegalCommand ∨ code = .invalidLength := by
  unfold decodeCommand at h
  split_ifs at h <;> cases h <;> simp

/-- A CTR_XOR that decodes has a legal length (30_encoding.md R75, R77). -/
theorem decodeCommand_ctrXor {w : Word} {n : BitVec 5} (h : decodeCommand w = .ok (.ctrXor n)) :
    legalLen n = true := by
  unfold decodeCommand at h
  split_ifs at h with _ _ _ _ hop <;> cases h
  exact hop.2

theorem presented_error {i : Instr} {code : ErrCode} (h : presented i = some (.error code)) :
    code = .illegalCommand ∨ code = .invalidLength := by
  cases i with
  | wrCmd d => exact decodeCommand_error (Option.some.inj h)
  | ctrXor n =>
    simp only [presented, Option.some.injEq] at h
    split_ifs at h
    cases h
    exact .inr rfl
  | cmdIllegal w => cases h; exact .inl rfl
  | _ => cases h

theorem presented_ctrXor {i : Instr} {n : BitVec 5} (h : presented i = some (.ok (.ctrXor n))) :
    legalLen n = true := by
  cases i with
  | wrCmd d => exact decodeCommand_ctrXor (Option.some.inj h)
  | ctrXor m =>
    simp only [presented, Option.some.injEq] at h
    split_ifs at h with hm
    cases h
    exact hm
  | _ => cases h

theorem presented_readOrWrite {wdata : Option Word} {rd : Instr} {wr : Word → Instr}
    (hrd : presented rd = none) (hwr : ∀ d, presented (wr d) = none) :
    presented (readOrWrite wdata rd wr) = none := by
  cases wdata with
  | none => exact hrd
  | some d => exact hwr d

/-- If the instruction presents a command at all, it is the write of CMD. -/
def PresentsOnlyAsWrCmd (i : Instr) : Prop := presented i = none ∨ ∃ d, i = .wrCmd d

theorem decodeAddr_presentsOnlyAsWrCmd (a : BitVec 8) (wdata : Option Word) :
    PresentsOnlyAsWrCmd (decodeAddr a wdata) := by
  have hcmd : PresentsOnlyAsWrCmd (readOrWrite wdata .rdCmd .wrCmd) := by
    cases wdata with
    | none => exact .inl rfl
    | some d => exact .inr ⟨d, rfl⟩
  unfold decodeAddr
  iterate 3 refine iteInduction (motive := PresentsOnlyAsWrCmd) (fun _ => .inl rfl) fun _ => ?_
  refine iteInduction (motive := PresentsOnlyAsWrCmd) (fun _ => hcmd) fun _ => ?_
  iterate 8
    refine iteInduction (motive := PresentsOnlyAsWrCmd)
      (fun _ => .inl (presented_readOrWrite rfl fun _ => rfl)) fun _ => ?_
  exact .inl (presented_readOrWrite rfl fun _ => rfl)

theorem presentsWord_of_presented {r : Request} {i : Instr} {c : Except ErrCode Command}
    (hd : decode r = .ok i) (hp : presented i = some c) : ∃ w, PresentsWord i w := by
  cases r with
  | cmd w => exact ⟨w, .inr (Except.ok.inj hd).symm⟩
  | bus r =>
    simp only [decode, decodeBus] at hd
    split_ifs at hd
    cases hd
    rcases decodeAddr_presentsOnlyAsWrCmd (BitVec.ofNat 8 r.off) r.wdata with hnone | ⟨d, hcmd⟩
    · rw [hnone] at hp; cases hp
    · exact ⟨d, .inl hcmd⟩

/-! ## The effect of a step -/

/-- The next step is the host's turn and presents a command word. -/
abbrev HostPresents (s : State) : Prop := ∃ i w, HostTakes s i ∧ PresentsWord i w

/-- An instruction under the busy rule (40_host_interface.md R99): a write to CMD, KEY, CTR or IN. -/
abbrev UnderBusyRule (i : Instr) : Prop :=
  (∃ w, PresentsWord i w) ∨ ∃ j d, i = .wrKey j d ∨ i = .wrCtr j d ∨ i = .wrIn j d

/-- The codes a command rejects with (60_exceptions.md R191, R196): 1 to 4. -/
abbrev RejectCode (code : ErrCode) : Prop :=
  code = .illegalCommand ∨ code = .invalidLength ∨ code = .missingKey ∨ code = .missingCounterState

/-- What one step from `s` does to the block, with the condition for it; `u` is `s` after the step's
bookkeeping of the host's own fields. -/
inductive BlockEffect (s u : State) : State → Prop where
  | keep : BlockEffect s u u
  | reset (hd : HostDoes s .reset) : BlockEffect s u (resetBlock u)
  | drop (i : Instr) (hb : s.busy = true) (ht : HostTakes s i) (hi : UnderBusyRule i) :
      BlockEffect s u (dropWrite u)
  | reject (code : ErrCode) (hb : s.busy = false) (hp : HostPresents s) (hcode : RejectCode code) :
      BlockEffect s u (rejectCommand code u)
  | accept (c : Command) (hb : s.busy = false) (hp : HostPresents s) (hk : keyValid s = true)
      (hc : ∀ n, c = .ctrXor n → ctrValid s = true ∧ legalLen n = true) :
      BlockEffect s u (acceptCommand c u)
  | storeKey (j : Fin 4) (d : Word) (hb : s.busy = false) (ht : HostTakes s (.wrKey j d)) :
      BlockEffect s u (storeKey j d u)
  | storeCtr (j : Fin 4) (d : Word) (hb : s.busy = false) (ht : HostTakes s (.wrCtr j d)) :
      BlockEffect s u (storeCtr j d u)
  | storeIn (j : Fin 4) (d : Word) (hb : s.busy = false) (ht : HostTakes s (.wrIn j d)) :
      BlockEffect s u (storeIn j d u)
  | round (hb : s.busy = true) (hr : s.rc.val < 16) : BlockEffect s u (roundStep u)
  | commitPerm (hc : CommitsNext s) (ho : s.opl ≠ .ctrXor) : BlockEffect s u (commitPerm u)
  | commitCtr (hc : CommitsNext s) (ho : s.opl = .ctrXor) : BlockEffect s u (commitCtr u)

/-- `s` with the model's fields of the host replaced, all registers of the block as they are. -/
abbrev withHost (s : State) (pending : List HostOp) (turns : List Agent) (reads : List Word) :
    State :=
  { s with pending := pending, turns := turns, reads := reads }

theorem coreTurn_effect {s : State} (ha : nextAgent s = .core) :
    BlockEffect s (popTurn s) (coreTurn (popTurn s)) := by
  rcases coreTurn_cases (popTurn s) with
    ⟨-, ht⟩ | ⟨hb, hr, ht⟩ | ⟨hb, hr, ho, ht⟩ | ⟨hb, hr, ho, ht⟩ <;> rw [ht]
  · exact .keep
  · exact .round hb hr
  · exact .commitPerm ⟨ha, hb, hr⟩ ho
  · exact .commitCtr ⟨ha, hb, hr⟩ ho

theorem unlessBusy_effect {s u : State} {i : Instr} {f : State → State} (hu : u.busy = s.busy)
    (ht : HostTakes s i) (hi : UnderBusyRule i)
    (hf : s.busy = false → BlockEffect s u (f u)) : BlockEffect s u (unlessBusy f u) := by
  cases hb : s.busy with
  | true => rw [unlessBusy_busy f (hu.trans hb)]; exact .drop i hb ht hi
  | false => rw [unlessBusy_idle f (hu.trans hb)]; exact hf hb

theorem presentCommand_effect {s u : State} {i : Instr} {w : Word} {c : Except ErrCode Command}
    (hb : u.busy = s.busy) (hkey : u.keyWr = s.keyWr) (hctr : u.ctrWr = s.ctrWr)
    (ht : HostTakes s i) (hw : PresentsWord i w) (hc : presented i = some c) :
    BlockEffect s u (presentCommand c u) := by
  have hk : keyValid u = keyValid s := by simp only [keyValid, hkey]
  have hv : ctrValid u = ctrValid s := by simp only [ctrValid, hctr]
  refine unlessBusy_effect hb ht (.inl ⟨w, hw⟩) fun hidle => ?_
  have hp : HostPresents s := ⟨i, w, ht, hw⟩
  cases c with
  | error code =>
    exact .reject code hidle hp ((presented_error hc).imp_right .inl)
  | ok c =>
    simp only [checkCommand, hk, hv]
    split_ifs with hnokey hnoctr
    · exact .reject _ hidle hp (.inr (.inr (.inl rfl)))
    · exact .reject _ hidle hp (.inr (.inr (.inr rfl)))
    · refine .accept c hidle hp (Bool.eq_true_of_not_eq_false hnokey) fun n hn => ?_
      subst hn
      exact ⟨by simpa [needsCounter] using hnoctr, presented_ctrXor hc⟩

/-- Every step that answers a next state has one of the effects, up to the host's own fields. -/
theorem step_effect {s t : State} (h : step s = .next t) :
    ∃ pending turns reads, BlockEffect s (withHost s pending turns reads) t := by
  rcases step_cases h with ⟨ha, rfl⟩ | ⟨-, -, rfl⟩ | ⟨ha, rest, hp, rfl⟩ | ⟨-, rest, -, rfl⟩ |
    ⟨ha, r, rest, i, hp, hd, hx⟩
  · exact ⟨_, _, _, coreTurn_effect ha⟩
  · exact ⟨_, _, _, .keep (u := popTurn s)⟩
  · exact ⟨_, _, _, .reset (u := setPending rest (popTurn s)) ⟨ha, by rw [hp]; rfl⟩⟩
  · split_ifs
    · exact ⟨_, _, _, .keep (u := readReturns (statusWord s) (popTurn s))⟩
    · exact ⟨_, _, _, .keep (u := readReturns (statusWord s) (setPending rest (popTurn s)))⟩
  · have ht : HostTakes s i := ⟨r, ⟨ha, by rw [hp]; rfl⟩, hd⟩
    rcases exec_cases hx with ⟨c, hc, rfl⟩ | ⟨d, rfl⟩ | rfl | ⟨j, d, rfl, rfl⟩ | ⟨j, d, rfl, rfl⟩ |
      ⟨j, d, rfl, rfl⟩
    · obtain ⟨w, hw⟩ := presentsWord_of_presented hd hc
      exact ⟨_, _, _, presentCommand_effect (u := setPending rest (popTurn s)) rfl rfl rfl ht hw hc⟩
    · exact ⟨_, _, _, .keep (u := readReturns d (setPending rest (popTurn s)))⟩
    · exact ⟨_, _, _, .keep (u := setPending rest (popTurn s))⟩
    · exact ⟨_, _, _, unlessBusy_effect (u := setPending rest (popTurn s)) rfl ht
        (.inr ⟨j, d, .inl rfl⟩) fun hb => .storeKey j d hb ht⟩
    · exact ⟨_, _, _, unlessBusy_effect (u := setPending rest (popTurn s)) rfl ht
        (.inr ⟨j, d, .inr (.inl rfl)⟩) fun hb => .storeCtr j d hb ht⟩
    · exact ⟨_, _, _, unlessBusy_effect (u := setPending rest (popTurn s)) rfl ht
        (.inr ⟨j, d, .inr (.inr rfl)⟩) fun hb => .storeIn j d hb ht⟩

/-- What the host takes at its turn is run on the state after the bookkeeping. -/
theorem step_of_hostTakes {s : State} {i : Instr} (h : HostTakes s i) :
    ∃ rest, step s = exec i (setPending rest (popTurn s)) := by
  obtain ⟨r, ⟨ha, hp⟩, hd⟩ := h
  obtain ⟨rest, hp⟩ := List.head?_eq_some_iff.mp hp
  exact ⟨rest, by simp [step, ha, hostTurn, hp, hostOperation, takeRequest, hd]⟩

end Sys2Proof.Proofs
end

