-- ==== Sys2Proof/Proofs/BlockInvariant.lean ====
section
/-! PROOF. The state right after reset (10_state.md R38), and the invariant of the block: it holds at
reset, and every effect of a step keeps it. -/

namespace Sys2Proof.Proofs

open Sys2Proof.Machine Sys2Proof.Laws

/-! ## Write masks -/

theorem setMaskBit_getLsbD (m : BitVec 4) (j k : Fin 4) :
    (setMaskBit m j).getLsbD k.val = (m.getLsbD k.val || decide (k = j)) := by
  revert m j k
  decide

theorem unwrittenZero_store {m : BitVec 4} {q : Quad} (h : UnwrittenZero m q) (j : Fin 4) (d : Word) :
    UnwrittenZero (setMaskBit m j) (setWord q j d) := by
  intro k hk
  rw [setMaskBit_getLsbD, Bool.or_eq_false_iff, decide_eq_false_iff_not] at hk
  obtain ⟨hm, hkj⟩ := hk
  rw [wordAt_setWord_other q d hkj]
  exact h k hm

theorem unwrittenZero_full (q : Quad) : UnwrittenZero 0b1111#4 q := by
  intro k hk
  exact absurd hk (by revert k; decide)

@[simp] theorem setMaskBit_full (j : Fin 4) : setMaskBit 0b1111#4 j = 0b1111#4 := by
  revert j
  decide

theorem keyValid_storeKey {s : State} (h : keyValid s = true) (j : Fin 4) (d : Word) :
    keyValid (storeKey j d s) = true := by
  rw [keyValid_iff] at h ⊢
  rw [storeKey_keyWr, h, setMaskBit_full]

/-! ## Reset -/

/-- Settles O1: reset gives every register its value. -/
theorem resetStateIsAsSpecified : Obligations.ResetStateIsAsSpecified := by
  have hzero : ∀ j, wordAt zeroQuad j = 0#32 := by decide
  have hcounter : counterValue State.reset.ctr = 0#128 := by decide
  have hstatus : statusWord State.reset = 0x00000000#32 := by decide
  exact ⟨hzero, hzero, hzero, hzero, hcounter, rfl, rfl, rfl, rfl, rfl, rfl, rfl, hstatus⟩

/-- Settles O3: every window is 0 and no command runs or is done. -/
theorem invariantHoldsAtReset : Obligations.InvariantHoldsAtReset := by
  have hzero : UnwrittenZero State.reset.keyWr zeroQuad := by decide
  exact ⟨nofun, nofun, hzero, hzero, fun _ => rfl⟩

/-! ## The effects keep the invariant -/

/-- A command that is accepted starts at round 0 of its whitened input block. -/
theorem runningInv_accept {s : State} {c : Command} (hk : keyValid s = true)
    (hc : ∀ n, c = .ctrXor n → ctrValid s = true ∧ legalLen n = true) :
    RunningInv (acceptCommand c s) := by
  refine ⟨hk, rfl, .inl rfl, fun ho => ?_, fun ho => ?_, rfl⟩
  · cases c with
    | ctrXor n => exact hc n rfl
    | permFwd | permInv => cases ho
  · cases c with
    | ctrXor n => exact absurd rfl ho
    | permFwd | permInv => rfl

theorem runningInv_round {s : State} (h : RunningInv s) (hr : s.rc.val < 16) :
    RunningInv (roundStep s) := by
  obtain ⟨hk, hd, he, hctr, hlen, hv⟩ := h
  refine ⟨hk, hd, he, hctr, hlen, ?_⟩
  calc roundDir (opDirection s.opl) s.v
    _ = roundsDir (opDirection s.opl) (s.rc.val + 1) (xorQuad (inputBlock s.opl s) s.key) := by
      rw [hv]; rfl
    _ = roundsDir (opDirection s.opl) (nextRc s.rc).val (xorQuad (inputBlock s.opl s) s.key) := by
      rw [nextRc_val hr]

/-- A dropped write leaves ERR = 5 and a running command as it is (60_exceptions.md R197). -/
theorem blockInv_drop {s : State} (h : BlockInv s) : BlockInv (dropWrite s) := by
  obtain ⟨hrun, hdone, hrest⟩ := h
  refine ⟨fun hb => ?_, fun hd => ⟨(hdone hd).1, .inr rfl⟩, hrest⟩
  obtain ⟨hk, hd, -, hregs⟩ := hrun hb
  exact ⟨hk, hd, .inr rfl, hregs⟩

theorem blockInv_reject {s : State} (h : BlockInv s) (hb : s.busy = false) (code : ErrCode) :
    BlockInv (rejectCommand code s) := by
  obtain ⟨-, -, hrest⟩ := h
  exact ⟨(Bool.eq_false_iff.mp hb).elim, nofun, hrest⟩

theorem blockInv_accept {s : State} {c : Command} (h : BlockInv s) (hk : keyValid s = true)
    (hc : ∀ n, c = .ctrXor n → ctrValid s = true ∧ legalLen n = true) :
    BlockInv (acceptCommand c s) := by
  obtain ⟨-, -, hrest⟩ := h
  exact ⟨fun _ => runningInv_accept hk hc, nofun, hrest⟩

theorem blockInv_storeKey {s : State} (h : BlockInv s) (hb : s.busy = false) (j : Fin 4) (d : Word) :
    BlockInv (storeKey j d s) := by
  obtain ⟨-, hdone, hkey, hctr, hout⟩ := h
  refine ⟨(Bool.eq_false_iff.mp hb).elim, fun hd => ?_, unwrittenZero_store hkey j d, hctr,
    fun hk' => hout (Bool.eq_false_of_not_eq_true fun hk => ?_)⟩
  · obtain ⟨hk, he⟩ := hdone hd
    exact ⟨keyValid_storeKey hk j d, he⟩
  · exact absurd (keyValid_storeKey hk j d) (by simp [hk'])

theorem blockInv_storeCtr {s : State} (h : BlockInv s) (hb : s.busy = false) (j : Fin 4) (d : Word) :
    BlockInv (storeCtr j d s) := by
  obtain ⟨-, hdone, hkey, hctr, hout⟩ := h
  exact ⟨(Bool.eq_false_iff.mp hb).elim, hdone, hkey, unwrittenZero_store hctr j d, hout⟩

theorem blockInv_storeIn {s : State} (h : BlockInv s) (hb : s.busy = false) (j : Fin 4) (d : Word) :
    BlockInv (storeIn j d s) := by
  obtain ⟨-, hrest⟩ := h
  exact ⟨(Bool.eq_false_iff.mp hb).elim, hrest⟩

theorem blockInv_round {s : State} (h : BlockInv s) (hb : s.busy = true) (hr : s.rc.val < 16) :
    BlockInv (roundStep s) := by
  obtain ⟨hrun, hrest⟩ := h
  exact ⟨fun _ => runningInv_round (hrun hb) hr, hrest⟩

theorem blockInv_commitPerm {s : State} (h : BlockInv s) (hb : s.busy = true) :
    BlockInv (commitPerm s) := by
  obtain ⟨hrun, -, hkey, hctr, -⟩ := h
  obtain ⟨hk, -, he, -⟩ := hrun hb
  exact ⟨nofun, fun _ => ⟨hk, he⟩, hkey, hctr, fun hk' => absurd (hk.symm.trans hk') nofun⟩

/-- The commit of a CTR_XOR changes the counter, all of whose words have been written. -/
theorem blockInv_commitCtr {s : State} (h : BlockInv s) (hb : s.busy = true) (ho : s.opl = .ctrXor) :
    BlockInv (commitCtr s) := by
  obtain ⟨hrun, -, hkey, -, -⟩ := h
  obtain ⟨hk, -, he, hctr, -⟩ := hrun hb
  obtain ⟨hcv, -⟩ := hctr ho
  refine ⟨nofun, fun _ => ⟨hk, he⟩, hkey, ?_, fun hk' => absurd (hk.symm.trans hk') nofun⟩
  show UnwrittenZero s.ctrWr (inc128 s.ctr)
  rw [(ctrValid_iff s).mp hcv]
  exact unwrittenZero_full _

/-- Settles O4: the host's own fields are no part of the invariant, and each effect keeps it. -/
theorem stepKeepsInvariant : Obligations.StepKeepsInvariant := by
  intro s t hinv h
  obtain ⟨pending, turns, reads, heff⟩ := step_effect h
  have hu : BlockInv (withHost s pending turns reads) := hinv
  cases heff with
  | keep => exact hu
  | reset => exact invariantHoldsAtReset
  | drop => exact blockInv_drop hu
  | reject code hb => exact blockInv_reject hu hb code
  | accept c _ _ hk hc => exact blockInv_accept hu hk hc
  | storeKey j d hb => exact blockInv_storeKey hu hb j d
  | storeCtr j d hb => exact blockInv_storeCtr hu hb j d
  | storeIn j d hb => exact blockInv_storeIn hu hb j d
  | round hb hr => exact blockInv_round hu hb hr
  | commitPerm hc =>
    obtain ⟨-, hb, -⟩ := hc
    exact blockInv_commitPerm hu hb
  | commitCtr hc ho =>
    obtain ⟨-, hb, -⟩ := hc
    exact blockInv_commitCtr hu hb ho

end Sys2Proof.Proofs
end

