-- ==== Sys2Proof/Proofs/SafetyRules.lean ====
section
/-! PROOF. Who may change what (10_state.md R22, R23, R25, R26, R29, R30, R33): each rule is read off
the effects of a step. -/

namespace Sys2Proof.Proofs

open Sys2Proof.Machine Sys2Proof.Laws

/-! ## The windows -/

/-- Settles O49: only the store to KEY and reset touch KEY. -/
theorem onlyTheHostChangesKey : Obligations.OnlyTheHostChangesKey := by
  intro s t h
  obtain ⟨pending, turns, reads, heff⟩ := step_effect h
  cases heff with
  | storeKey j d hb ht => exact .inr (.inr ⟨hb, j, d, ht, rfl⟩)
  | reset hd => exact .inr (.inl hd)
  | _ => exact .inl rfl

/-- Settles O50: besides the store and reset, only the commit of a CTR_XOR, which increments. -/
theorem onlyTheseChangeTheCounter : Obligations.OnlyTheseChangeTheCounter := by
  intro s t h
  obtain ⟨pending, turns, reads, heff⟩ := step_effect h
  cases heff with
  | storeCtr j d hb ht => exact .inr (.inr (.inl ⟨hb, j, d, ht, rfl⟩))
  | reset hd => exact .inr (.inl hd)
  | commitCtr hc ho => exact .inr (.inr (.inr ⟨hc, ho, counterValue_inc128 s.ctr⟩))
  | _ => exact .inl rfl

/-- Settles O51: IN as KEY; OUT is touched by the two commits and reset. -/
theorem onlyTheseChangeInAndOut : Obligations.OnlyTheseChangeInAndOut := by
  intro s t h
  obtain ⟨pending, turns, reads, heff⟩ := step_effect h
  cases heff with
  | storeIn j d hb ht => exact ⟨.inr (.inr ⟨hb, j, d, ht, rfl⟩), .inl rfl⟩
  | reset hd => exact ⟨.inr (.inl hd), .inr (.inl hd)⟩
  | commitPerm hc | commitCtr hc => exact ⟨.inl rfl, .inr (.inr hc)⟩
  | _ => exact ⟨.inl rfl, .inl rfl⟩

/-! ## The write masks -/

/-- A write under the busy rule that the host takes at an idle block has its effect. -/
theorem eq_of_hostTakes_idle {s t : State} {i : Instr} {write : State → State}
    (h : step s = .next t) (hb : s.busy = false) (ht : HostTakes s i)
    (hi : ∀ u, exec i u = .next (unlessBusy write u)) :
    ∃ rest, t = write (setPending rest (popTurn s)) := by
  obtain ⟨rest, hx⟩ := step_of_hostTakes ht
  rw [h, hi, unlessBusy_idle write (by exact hb)] at hx
  exact ⟨rest, Host.Outcome.next.inj hx⟩

/-- A mask that changes by setting the bit of a stored word only, and does set it, has a bit set
exactly if it was set or its word is stored. -/
theorem maskBit_iff {m m' : BitVec 4} {stored : Fin 4 → Prop}
    (hchange : m' = m ∨ ∃ j, stored j ∧ m' = setMaskBit m j)
    (hset : ∀ j, stored j → m' = setMaskBit m j) (k : Fin 4) :
    m'.getLsbD k.val = true ↔ m.getLsbD k.val = true ∨ stored k := by
  constructor
  · intro hbit
    rcases hchange with rfl | ⟨j, hj, rfl⟩
    · exact .inl hbit
    · rw [setMaskBit_getLsbD, Bool.or_eq_true, decide_eq_true_iff] at hbit
      obtain hbit | rfl := hbit
      · exact .inl hbit
      · exact .inr hj
  · rintro (hbit | hk)
    · rcases hchange with rfl | ⟨j, -, rfl⟩
      · exact hbit
      · rw [setMaskBit_getLsbD, hbit, Bool.true_or]
    · rw [hset k hk, setMaskBit_getLsbD, decide_eq_true rfl, Bool.or_true]

/-- The host stores word `j` of KEY: WR.KEY[j] while BUSY = 0. -/
abbrev StoresKey (s : State) (j : Fin 4) : Prop := s.busy = false ∧ ∃ d, HostTakes s (.wrKey j d)

/-- The host stores word `j` of CTR: WR.CTR[j] while BUSY = 0. -/
abbrev StoresCtr (s : State) (j : Fin 4) : Prop := s.busy = false ∧ ∃ d, HostTakes s (.wrCtr j d)

theorem masks_step {s t : State} (h : step s = .next t) :
    HostDoes s .reset ∨
      ((t.keyWr = s.keyWr ∨ ∃ j, StoresKey s j ∧ t.keyWr = setMaskBit s.keyWr j) ∧
       (t.ctrWr = s.ctrWr ∨ ∃ j, StoresCtr s j ∧ t.ctrWr = setMaskBit s.ctrWr j)) := by
  obtain ⟨pending, turns, reads, heff⟩ := step_effect h
  cases heff with
  | storeKey j d hb ht => exact .inr ⟨.inr ⟨j, ⟨hb, d, ht⟩, rfl⟩, .inl rfl⟩
  | storeCtr j d hb ht => exact .inr ⟨.inl rfl, .inr ⟨j, ⟨hb, d, ht⟩, rfl⟩⟩
  | reset hd => exact .inl hd
  | _ => exact .inr ⟨.inl rfl, .inl rfl⟩

theorem keyWr_of_storesKey {s t : State} {j : Fin 4} (h : step s = .next t) (hs : StoresKey s j) :
    t.keyWr = setMaskBit s.keyWr j := by
  obtain ⟨hb, d, ht⟩ := hs
  obtain ⟨rest, rfl⟩ := eq_of_hostTakes_idle h hb ht fun _ => rfl
  rfl

theorem ctrWr_of_storesCtr {s t : State} {j : Fin 4} (h : step s = .next t) (hs : StoresCtr s j) :
    t.ctrWr = setMaskBit s.ctrWr j := by
  obtain ⟨hb, d, ht⟩ := hs
  obtain ⟨rest, rfl⟩ := eq_of_hostTakes_idle h hb ht fun _ => rfl
  rfl

/-- Settles O52: a step that is no reset changes a mask by the bit of the stored word only. -/
theorem masksAreOnlySet : Obligations.MasksAreOnlySet := by
  intro s t h
  refine (masks_step h).imp_right fun ⟨hkey, hctr⟩ k => ⟨?_, ?_⟩
  · exact maskBit_iff hkey (fun _ => keyWr_of_storesKey h) k
  · exact maskBit_iff hctr (fun _ => ctrWr_of_storesCtr h) k

/-! ## STATUS -/

theorem rejectCode_ne_none {code : ErrCode} (h : RejectCode code) : code ≠ .none := by
  rcases h with rfl | rfl | rfl | rfl <;> decide

/-- Settles O53: reset, the commits and a presented command, rejected or accepted, are the effects
that write BUSY or DONE. -/
theorem onlyTheseWriteBusyAndDone : Obligations.OnlyTheseWriteBusyAndDone := by
  intro s t h
  obtain ⟨pending, turns, reads, heff⟩ := step_effect h
  cases heff with
  | reset hd => exact .inr (.inl ⟨hd, rfl, rfl⟩)
  | commitPerm hc | commitCtr hc => exact .inr (.inr (.inl ⟨hc, rfl, rfl⟩))
  | reject code hb hp hcode =>
    exact .inr (.inr (.inr ⟨hb, rfl, hp, .inr ⟨hb, rejectCode_ne_none hcode⟩⟩))
  | accept c hb hp => exact .inr (.inr (.inr ⟨hb, rfl, hp, .inl ⟨rfl, rfl⟩⟩))
  | _ => exact .inl ⟨rfl, rfl⟩

/-- Settles O54: reset, a dropped write and a presented command, rejected or accepted, are the
effects that write ERR; a commit leaves it. -/
theorem threeWaysErrChanges : Obligations.ThreeWaysErrChanges := by
  intro s t h
  obtain ⟨pending, turns, reads, heff⟩ := step_effect h
  cases heff with
  | reset hd => exact .inr (.inl ⟨hd, rfl⟩)
  | drop i hb ht hi => exact .inr (.inr (.inl ⟨hb, rfl, i, ht, hi⟩))
  | reject code hb hp hcode => exact .inr (.inr (.inr ⟨hb, hp, .inr ⟨hb, rfl, hcode⟩⟩))
  | accept c hb hp => exact .inr (.inr (.inr ⟨hb, hp, .inl ⟨rfl, rfl⟩⟩))
  | _ => exact .inl rfl

end Sys2Proof.Proofs
end

