-- ==== Sys2Proof/Proofs/KeySecrecy.lean ====
section
/-! PROOF. What a host that knows no key sees (10_state.md R22, 60_exceptions.md R206): the operations
of a step, the commits aside, take states that differ in nothing but KEY and V to such states. -/

namespace Sys2Proof.Proofs

open Sys2Proof.Machine Sys2Proof.Laws

/-- `s` with other key words and another V. -/
def withKeyV (key v : Quad) (s : State) : State := { s with key := key, v := v }

theorem sameButKey_withKeyV (key v : Quad) (s : State) : SameButKey s (withKeyV key v s) :=
  ⟨rfl, rfl, rfl, rfl, rfl, rfl, rfl, rfl, rfl, rfl, rfl, rfl, rfl, rfl, rfl⟩

theorem eq_withKeyV {s t : State} (h : SameButKey s t) : t = withKeyV t.key t.v s := by
  obtain ⟨hctr, hinp, hout, hbusy, hdone, herr, hkeyWr, hctrWr, hpending, hturns, hreads, hrc, hopl,
    hlenl, hfree⟩ := h
  simp only [withKeyV, hctr, hinp, hout, hbusy, hdone, herr, hkeyWr, hctrWr, hpending, hturns,
    hreads, hrc, hopl, hlenl, hfree]

/-- An operation that takes states differing in KEY and V alone to such states. -/
abbrev KeepsSameButKey (f : State → State) : Prop := ∀ s t, SameButKey s t → SameButKey (f s) (f t)

/-- It is enough to follow the operation from `s` with KEY and V replaced. -/
theorem keepsSameButKey_of_withKeyV {f : State → State}
    (h : ∀ key v s, ∃ key' v', f (withKeyV key v s) = withKeyV key' v' (f s)) :
    KeepsSameButKey f := by
  intro s t hst
  obtain ⟨key', v', hf⟩ := h t.key t.v s
  rw [eq_withKeyV hst, hf]
  exact sameButKey_withKeyV key' v' (f s)

theorem keepsSameButKey_readReturns (d : Word) : KeepsSameButKey (readReturns d) :=
  keepsSameButKey_of_withKeyV fun key v _ => ⟨key, v, rfl⟩

theorem keepsSameButKey_popTurn : KeepsSameButKey popTurn :=
  keepsSameButKey_of_withKeyV fun key v _ => ⟨key, v, rfl⟩

theorem keepsSameButKey_setPending (ops : List HostOp) : KeepsSameButKey (setPending ops) :=
  keepsSameButKey_of_withKeyV fun key v _ => ⟨key, v, rfl⟩

theorem keepsSameButKey_resetBlock : KeepsSameButKey resetBlock :=
  keepsSameButKey_of_withKeyV fun _ _ _ => ⟨zeroQuad, zeroQuad, rfl⟩

theorem keepsSameButKey_dropWrite : KeepsSameButKey dropWrite :=
  keepsSameButKey_of_withKeyV fun key v _ => ⟨key, v, rfl⟩

theorem keepsSameButKey_rejectCommand (code : ErrCode) : KeepsSameButKey (rejectCommand code) :=
  keepsSameButKey_of_withKeyV fun key v _ => ⟨key, v, rfl⟩

/-- The whitened input block goes to V, and nowhere else. -/
theorem keepsSameButKey_acceptCommand (c : Command) : KeepsSameButKey (acceptCommand c) :=
  keepsSameButKey_of_withKeyV fun key v s =>
    ⟨key, xorQuad (inputBlock (commandOp c) (withKeyV key v s)) key, rfl⟩

theorem keepsSameButKey_storeKey (j : Fin 4) (d : Word) : KeepsSameButKey (storeKey j d) :=
  keepsSameButKey_of_withKeyV fun key v _ => ⟨setWord key j d, v, rfl⟩

theorem keepsSameButKey_storeCtr (j : Fin 4) (d : Word) : KeepsSameButKey (storeCtr j d) :=
  keepsSameButKey_of_withKeyV fun key v _ => ⟨key, v, rfl⟩

theorem keepsSameButKey_storeIn (j : Fin 4) (d : Word) : KeepsSameButKey (storeIn j d) :=
  keepsSameButKey_of_withKeyV fun key v _ => ⟨key, v, rfl⟩

theorem keepsSameButKey_roundStep : KeepsSameButKey roundStep :=
  keepsSameButKey_of_withKeyV fun key v s => ⟨key, roundDir (opDirection s.opl) v, rfl⟩

/-! ## The branches of a step depend on neither KEY nor V -/

theorem keepsSameButKey_unlessBusy {f : State → State} (hf : KeepsSameButKey f) :
    KeepsSameButKey (unlessBusy f) := by
  intro s t hst
  have hbusy : s.busy = t.busy := by obtain ⟨-, -, -, hbusy, -⟩ := hst; exact hbusy
  simp only [unlessBusy, hbusy]
  split_ifs
  · exact keepsSameButKey_dropWrite s t hst
  · exact hf s t hst

theorem keepsSameButKey_checkCommand (c : Except ErrCode Command) :
    KeepsSameButKey (checkCommand c) := by
  intro s t hst
  have hk : keyValid s = keyValid t := by rw [eq_withKeyV hst]; rfl
  have hc : ctrValid s = ctrValid t := by rw [eq_withKeyV hst]; rfl
  cases c with
  | error code => exact keepsSameButKey_rejectCommand code s t hst
  | ok c =>
    simp only [checkCommand, hk, hc]
    split_ifs
    · exact keepsSameButKey_rejectCommand _ s t hst
    · exact keepsSameButKey_rejectCommand _ s t hst
    · exact keepsSameButKey_acceptCommand c s t hst

theorem keepsSameButKey_presentCommand (c : Except ErrCode Command) :
    KeepsSameButKey (presentCommand c) :=
  keepsSameButKey_unlessBusy (keepsSameButKey_checkCommand c)

theorem statusWord_sameButKey {s t : State} (h : SameButKey s t) : statusWord s = statusWord t := by
  rw [eq_withKeyV h]; rfl

/-- KEY and V are the two windows no read returns (40_host_interface.md R94). -/
theorem exec_sameButKey (i : Instr) {s t : State} (h : SameButKey s t) :
    Answer.Related SameButKey (exec i s) (exec i t) := by
  have hread (d : Word) := keepsSameButKey_readReturns d s t h
  have hpresent (c : Except ErrCode Command) := keepsSameButKey_presentCommand c s t h
  obtain ⟨hctr, hinp, hout, -⟩ := id h
  cases i with
  | permFwd | permInv | ctrXor | cmdIllegal | wrCmd => exact hpresent _
  | rdCmd | rdKey | rdReserved08 | rdReserved50 | rdReserved60 | rdReserved80 => exact hread 0#32
  | rdStatus => rw [exec, exec, execRdStatus, execRdStatus, statusWord_sameButKey h]; exact hread _
  | rdCtr j => rw [exec, exec, execRdCtr, execRdCtr, hctr]; exact hread _
  | rdIn j => rw [exec, exec, execRdIn, execRdIn, hinp]; exact hread _
  | rdOut j => rw [exec, exec, execRdOut, execRdOut, hout]; exact hread _
  | wrStatus | wrOut | wrReserved08 | wrReserved50 | wrReserved60 | wrReserved80 => exact h
  | wrKey j d => exact keepsSameButKey_unlessBusy (keepsSameButKey_storeKey j d) s t h
  | wrCtr j d => exact keepsSameButKey_unlessBusy (keepsSameButKey_storeCtr j d) s t h
  | wrIn j d => exact keepsSameButKey_unlessBusy (keepsSameButKey_storeIn j d) s t h
  | refusedUnaligned1 | refusedUnaligned2 | refusedUnaligned3 => rfl

theorem takeRequest_sameButKey (r : Request) {s t : State} (h : SameButKey s t) :
    Answer.Related SameButKey (takeRequest r s) (takeRequest r t) := by
  unfold takeRequest
  cases decode r with
  | ok i => exact exec_sameButKey i h
  | error e => rfl

theorem pollStatus_sameButKey {s t : State} (h : SameButKey s t) :
    Answer.Related SameButKey (pollStatus s) (pollStatus t) := by
  have hpending : s.pending = t.pending := by rw [eq_withKeyV h]; rfl
  simp only [pollStatus, statusWord_sameButKey h, hpending]
  split_ifs
  · exact takeRequest_sameButKey _ (keepsSameButKey_setPending _ s t h)
  · exact takeRequest_sameButKey _ h

theorem hostTurn_sameButKey {s t : State} (h : SameButKey s t) :
    Answer.Related SameButKey (hostTurn s) (hostTurn t) := by
  have hpending : s.pending = t.pending := by rw [eq_withKeyV h]; rfl
  unfold hostTurn
  rw [← hpending]
  cases s.pending with
  | nil => exact h
  | cons op rest =>
    have hrest := keepsSameButKey_setPending rest s t h
    cases op with
    | request r => exact takeRequest_sameButKey r hrest
    | reset => exact keepsSameButKey_resetBlock _ _ hrest
    | wait => exact pollStatus_sameButKey hrest

/-- A core's turn that does not commit is a round, or nothing while idle. -/
theorem coreTurn_sameButKey {s t : State} (h : SameButKey s t)
    (hc : ¬ (s.busy = true ∧ s.rc.val = 16)) : SameButKey (coreTurn s) (coreTurn t) := by
  have hbusy : s.busy = t.busy := by rw [eq_withKeyV h]; rfl
  have hrc : s.rc = t.rc := by rw [eq_withKeyV h]; rfl
  unfold coreTurn coreStep
  rw [← hbusy, ← hrc]
  split_ifs with hb hr
  · exact keepsSameButKey_roundStep s t h
  · have hlt : s.rc.val < 17 := s.rc.isLt
    rw [Config.rounds] at hr
    exact absurd ⟨hb, by omega⟩ hc
  · exact h

/-- Settles O56: the same agent moves in both states, and its turn keeps them the same but for KEY
and V. -/
theorem keyReachesTheHostOnlyByCommits : Obligations.KeyReachesTheHostOnlyByCommits := by
  intro s t h hc
  have hagent : nextAgent s = nextAgent t := by rw [eq_withKeyV h]; rfl
  have hpop := keepsSameButKey_popTurn s t h
  unfold step
  rw [← hagent]
  cases ha : nextAgent s with
  | core => exact coreTurn_sameButKey hpop fun ⟨hb, hr⟩ => hc ⟨ha, hb, hr⟩
  | host => exact hostTurn_sameButKey hpop

end Sys2Proof.Proofs
end

