-- ==== Sys2Proof/Proofs/WindowWrites.lean ====
section
/-! PROOF. Repeated writes (20_memory.md R60): storing the same word again changes neither the window
nor its write mask, and a write keeps BUSY, so that the busy rule (40_host_interface.md R99) decides
on the repetition as on the first write. -/

namespace Sys2Proof.Proofs

open Sys2Proof.Machine Sys2Proof.Laws

/-- Of two writes to one word the last one stands. -/
@[simp] theorem setWord_setWord (q : Quad) (j : Fin 4) (d d' : Word) :
    setWord (setWord q j d) j d' = setWord q j d' := by
  match j with
  | 0 | 1 | 2 | 3 => rfl

@[simp] theorem setMaskBit_setMaskBit (m : BitVec 4) (j : Fin 4) :
    setMaskBit (setMaskBit m j) j = setMaskBit m j := by
  simp only [setMaskBit, BitVec.or_assoc, BitVec.or_self]

@[simp] theorem storeKey_storeKey (j : Fin 4) (d : Word) (s : State) :
    storeKey j d (storeKey j d s) = storeKey j d s := by
  simp [storeKey]

@[simp] theorem storeCtr_storeCtr (j : Fin 4) (d : Word) (s : State) :
    storeCtr j d (storeCtr j d s) = storeCtr j d s := by
  simp [storeCtr]

@[simp] theorem storeIn_storeIn (j : Fin 4) (d : Word) (s : State) :
    storeIn j d (storeIn j d s) = storeIn j d s := by
  simp [storeIn]

@[simp] theorem dropWrite_dropWrite (s : State) : dropWrite (dropWrite s) = dropWrite s := rfl

/-- Under the busy rule a write that keeps BUSY is as idempotent as it is without the rule. -/
theorem unlessBusy_unlessBusy {write : State → State} {s : State}
    (hbusy : (write s).busy = s.busy) (hidem : write (write s) = write s) :
    unlessBusy write (unlessBusy write s) = unlessBusy write s := by
  cases hb : s.busy with
  | true =>
    have hdrop : (dropWrite s).busy = true := hb
    rw [unlessBusy_busy write hb, unlessBusy_busy write hdrop, dropWrite_dropWrite]
  | false => rw [unlessBusy_idle write hb, unlessBusy_idle write (hbusy.trans hb), hidem]

/-- An instruction whose meaning is an idempotent operation repeats with no further effect. -/
theorem exec_again {i : Instr} {f : State → State} {s t : State}
    (hexec : ∀ u, exec i u = .next (f u)) (hidem : f (f s) = f s) (h : exec i s = .next t) :
    exec i t = .next t := by
  obtain rfl : f s = t := Host.Outcome.next.inj ((hexec s).symm.trans h)
  rw [hexec, hidem]

/-- Settles O21: each of the three stores is idempotent and keeps BUSY. -/
theorem windowWritesAreIdempotent : Obligations.WindowWritesAreIdempotent := by
  rintro s t j d i (rfl | rfl | rfl)
  · exact exec_again (fun _ => rfl) (unlessBusy_unlessBusy rfl (storeKey_storeKey j d s))
  · exact exec_again (fun _ => rfl) (unlessBusy_unlessBusy rfl (storeCtr_storeCtr j d s))
  · exact exec_again (fun _ => rfl) (unlessBusy_unlessBusy rfl (storeIn_storeIn j d s))

end Sys2Proof.Proofs
end

