-- ==== Sys2Proof/Proofs/TurnRules.lean ====
section
/-! PROOF. What a step is, by whose turn it is (20_memory.md R62): the host's next request, decoded
and run (R59, 30_encoding.md R70), or the core's turn. -/

namespace Sys2Proof.Proofs

open Sys2Proof.Machine Sys2Proof.Laws

theorem step_of_core {s : State} (ha : nextAgent s = .core) :
    step s = .next (coreTurn (popTurn s)) := by
  rw [step, ha]

theorem step_of_host {s : State} (ha : nextAgent s = .host) : step s = hostTurn (popTurn s) := by
  rw [step, ha]

theorem hostTurn_of_pending {s : State} {op : HostOp} {rest : List HostOp}
    (hp : s.pending = op :: rest) : hostTurn s = hostOperation op (setPending rest s) := by
  rw [hostTurn, hp]

theorem takeRequest_of_decode {r : Request} {i : Instr} (hd : decode r = .ok i) (s : State) :
    takeRequest r s = exec i s := by
  rw [takeRequest, hd]

theorem coreTurn_idle {s : State} (hb : s.busy = false) : coreTurn s = s :=
  if_neg (Bool.eq_false_iff.mp hb)

/-- Settles O9: the host's turn takes its next request, and taking a request is decoding and
running it. -/
theorem stepRunsDecodedInstruction : Obligations.StepRunsDecodedInstruction := by
  intro s r rest i ha hp hd
  calc step s
    _ = hostTurn (popTurn s) := step_of_host ha
    _ = takeRequest r (setPending rest (popTurn s)) :=
      hostTurn_of_pending ((popTurn_pending s).trans hp)
    _ = exec i (setPending rest (popTurn s)) := takeRequest_of_decode hd _

/-- Settles O31: the core's turn is used up, and on an idle block does no more. -/
theorem idleCoreDoesNothing : Obligations.IdleCoreDoesNothing := by
  intro s ha hb
  have hidle : (popTurn s).busy = false := hb
  rw [step_of_core ha, coreTurn_idle hidle, popTurn]

end Sys2Proof.Proofs
end

