-- ==== Sys2Proof/Proofs/RegisterMap.lean ====
section
/-! PROOF. The bus half of the decoder (30_encoding.md R71, R72) by the rows of the register map
(20_memory.md R52): each row decodes and encodes as the map says, and the rows cover the window. -/

namespace Sys2Proof.Proofs

open Sys2Proof.Machine Sys2Proof.Laws

/-! ## A row of the register map -/

/-- The `n` words from `base` on are a row of the map: they lie in the window, and the requests for
word `k` are what decodes to `row k` and what `row k` encodes to. -/
structure IsRow {n : Nat} (base : Nat) (row : Fin n → Option Word → Instr) : Prop where
  inWindow : base + 4 * (n - 1) ≤ 0xFF
  decodes : ∀ (k : Fin n) wdata, decodeAddr (BitVec.ofNat 8 (offWord base k)) wdata = row k wdata
  encodes : ∀ k wdata, encode (row k wdata) = rawReq (offWord base k) wdata

/-- The row of registers with the reads `rd` and the writes `wr`. -/
abbrev registers {n : Nat} (rd : Fin n → Instr) (wr : Fin n → Word → Instr) :
    Fin n → Option Word → Instr :=
  fun k wdata => readOrWrite wdata (rd k) (wr k)

/-- A row of registers: the encodings hold by the definition of `encode`, so that what is left to
show is the decoding, word by word. -/
theorem isRow_registers {n base : Nat} {rd : Fin n → Instr} {wr : Fin n → Word → Instr}
    (decodes : ∀ (k : Fin n) wdata,
      decodeAddr (BitVec.ofNat 8 (offWord base k)) wdata = registers rd wr k wdata)
    (inWindow : base + 4 * (n - 1) ≤ 0xFF := by decide)
    (hrd : ∀ k, encode (rd k) = readReq (offWord base k) := by intro k; rfl)
    (hwr : ∀ k d, encode (wr k d) = writeReq (offWord base k) d := by intro k d; rfl) :
    IsRow base (registers rd wr) where
  inWindow := inWindow
  decodes := decodes
  encodes
    | k, none => hrd k
    | k, some d => hwr k d

theorem decode_rawReq_of_le {off : Nat} (hoff : off ≤ 0xFF) (wdata : Option Word) :
    decode (rawReq off wdata) = .ok (decodeAddr (BitVec.ofNat 8 off) wdata) :=
  if_neg (Nat.not_lt.mpr hoff)

theorem IsRow.decode_rawReq {n base : Nat} {row : Fin n → Option Word → Instr} (h : IsRow base row)
    (k : Fin n) (wdata : Option Word) :
    decode (rawReq (offWord base k) wdata) = .ok (row k wdata) := by
  have hwindow := h.inWindow
  have hoff : offWord base k ≤ 0xFF := by rw [offWord]; omega
  rw [decode_rawReq_of_le hoff, h.decodes]

theorem IsRow.decode_encode {n base : Nat} {row : Fin n → Option Word → Instr} (h : IsRow base row)
    (k : Fin n) (wdata : Option Word) : decode (encode (row k wdata)) = .ok (row k wdata) := by
  rw [h.encodes, h.decode_rawReq]

/-! ## The rows of the map -/

theorem isRow_cmd : IsRow offCmd (registers (n := 1) (fun _ => .rdCmd) fun _ => .wrCmd) :=
  isRow_registers (fun k _ => by fin_cases k; rfl)
    (hrd := fun k => by fin_cases k; rfl) (hwr := fun k _ => by fin_cases k; rfl)

theorem isRow_status :
    IsRow offStatus (registers (n := 1) (fun _ => .rdStatus) fun _ => .wrStatus) :=
  isRow_registers (fun k _ => by fin_cases k; rfl)
    (hrd := fun k => by fin_cases k; rfl) (hwr := fun k _ => by fin_cases k; rfl)

theorem isRow_reserved08 : IsRow 0x08 (registers .rdReserved08 .wrReserved08) :=
  isRow_registers fun k _ => by fin_cases k <;> rfl

theorem isRow_key : IsRow baseKey (registers .rdKey .wrKey) :=
  isRow_registers fun k _ => by fin_cases k <;> rfl

theorem isRow_ctr : IsRow baseCtr (registers .rdCtr .wrCtr) :=
  isRow_registers fun k _ => by fin_cases k <;> rfl

theorem isRow_in : IsRow baseIn (registers .rdIn .wrIn) :=
  isRow_registers fun k _ => by fin_cases k <;> rfl

theorem isRow_out : IsRow baseOut (registers .rdOut .wrOut) :=
  isRow_registers fun k _ => by fin_cases k <;> rfl

theorem isRow_reserved50 : IsRow 0x50 (registers .rdReserved50 .wrReserved50) :=
  isRow_registers fun k _ => by fin_cases k <;> rfl

theorem isRow_reserved60 : IsRow 0x60 (registers .rdReserved60 .wrReserved60) :=
  isRow_registers fun k _ => by fin_cases k <;> rfl

theorem isRow_reserved80 : IsRow 0x80 (registers .rdReserved80 .wrReserved80) :=
  isRow_registers fun k _ => by fin_cases k <;> rfl

theorem isRow_unaligned1 : IsRow 1 .refusedUnaligned1 :=
  ⟨by decide, fun k _ => by fin_cases k <;> rfl, fun _ _ => rfl⟩

theorem isRow_unaligned2 : IsRow 2 .refusedUnaligned2 :=
  ⟨by decide, fun k _ => by fin_cases k <;> rfl, fun _ _ => rfl⟩

theorem isRow_unaligned3 : IsRow 3 .refusedUnaligned3 :=
  ⟨by decide, fun k _ => by fin_cases k <;> rfl, fun _ _ => rfl⟩

/-! ## The rows cover the window -/

/-- The offset is that of some word of some row. -/
def InSomeRow (off : Nat) : Prop :=
  ∃ (n base : Nat) (row : Fin n → Option Word → Instr) (k : Fin n),
    IsRow base row ∧ off = offWord base k

theorem IsRow.covers {n base off : Nat} {row : Fin n → Option Word → Instr} (h : IsRow base row)
    (hoff : base ≤ off ∧ off < base + 4 * n ∧ off % 4 = base % 4) : InSomeRow off :=
  ⟨n, base, row, ⟨(off - base) / 4, by omega⟩, h, by simp only [offWord]; omega⟩

theorem inSomeRow_of_le {off : Nat} (hoff : off ≤ 0xFF) : InSomeRow off := by
  obtain h1 | h2 | h3 | h0 : off % 4 = 1 ∨ off % 4 = 2 ∨ off % 4 = 3 ∨ off % 4 = 0 := by omega
  · exact isRow_unaligned1.covers (by omega)
  · exact isRow_unaligned2.covers (by omega)
  · exact isRow_unaligned3.covers (by omega)
  by_cases hcmd : off < 0x04
  · exact isRow_cmd.covers (by rw [offCmd]; omega)
  by_cases hstatus : off < 0x08
  · exact isRow_status.covers (by rw [offStatus]; omega)
  by_cases h08 : off < 0x10
  · exact isRow_reserved08.covers (by omega)
  by_cases hkey : off < 0x20
  · exact isRow_key.covers (by rw [baseKey]; omega)
  by_cases hctr : off < 0x30
  · exact isRow_ctr.covers (by rw [baseCtr]; omega)
  by_cases hin : off < 0x40
  · exact isRow_in.covers (by rw [baseIn]; omega)
  by_cases hout : off < 0x50
  · exact isRow_out.covers (by rw [baseOut]; omega)
  by_cases h50 : off < 0x60
  · exact isRow_reserved50.covers (by omega)
  by_cases h60 : off < 0x80
  · exact isRow_reserved60.covers (by omega)
  · exact isRow_reserved80.covers (by omega)

theorem encode_of_decodeBus {r : BusRequest} {i : Instr} (h : decodeBus r = .ok i) :
    encode i = .bus r := by
  obtain ⟨off, width, wdata⟩ := r
  unfold decodeBus at h
  split_ifs at h with hwidth hoff
  obtain rfl : width = Config.busBits := not_not.mp hwidth
  obtain ⟨n, base, row, k, hrow, rfl⟩ := inSomeRow_of_le (Nat.le_of_not_lt hoff)
  obtain rfl : row k wdata = i := (hrow.decodes k wdata).symm.trans (Except.ok.inj h)
  exact hrow.encodes k wdata

theorem wellFormed_of_encode_bus {i : Instr} {r : BusRequest} (h : encode i = .bus r) :
    i.wellFormed = true := by
  cases i with
  | cmdIllegal w => cases h
  | _ => rfl

end Sys2Proof.Proofs
end

