-- ==== Sys2Proof/Proofs/CommandWords.lean ====
section
/-! PROOF. The command words (30_encoding.md R73 to R78): the fields as numbers, the reading of a
word by its fields, and for each reading what `decode_cmd` answers and the row of the word. -/

namespace Sys2Proof.Proofs

open Sys2Proof.Machine Sys2Proof.Laws

/-! ## The fields -/

theorem cmdOp_toNat (w : Word) : (cmdOp w).toNat = w.toNat % 16 := by
  simp [cmdOp]

theorem cmdLen_toNat (w : Word) : (cmdLen w).toNat = w.toNat / 16 % 32 := by
  simp [cmdLen, Nat.shiftRight_eq_div_pow]

theorem cmdRsv_toNat (w : Word) : (cmdRsv w).toNat = w.toNat / 512 := by
  have hw := w.isLt
  rw [cmdRsv, BitVec.extractLsb'_toNat, Nat.shiftRight_eq_div_pow]
  omega

theorem cmdOp_eq_iff (w : Word) (c : BitVec 4) : cmdOp w = c ↔ w.toNat % 16 = c.toNat := by
  rw [← BitVec.toNat_inj, cmdOp_toNat]

theorem cmdLen_eq_iff (w : Word) (c : BitVec 5) : cmdLen w = c ↔ w.toNat / 16 % 32 = c.toNat := by
  rw [← BitVec.toNat_inj, cmdLen_toNat]

theorem cmdRsv_eq_iff (w : Word) (c : BitVec 23) : cmdRsv w = c ↔ w.toNat / 512 = c.toNat := by
  rw [← BitVec.toNat_inj, cmdRsv_toNat]

theorem append_fields (w : Word) : cmdRsv w ++ cmdLen w ++ cmdOp w = w := by
  apply BitVec.eq_of_toNat_eq
  simp only [toNat_append_eq_add, cmdRsv_toNat, cmdLen_toNat, cmdOp_toNat]
  omega

theorem legalLen_iff (n : BitVec 5) : legalLen n = true ↔ 1 ≤ n.toNat ∧ n.toNat ≤ 16 := by
  simp [legalLen, BitVec.le_def]

theorem isIllegalWord_iff (w : Word) : isIllegalWord w = true ↔
    w.toNat / 512 ≠ 0 ∨ w.toNat % 16 = 0 ∨ 4 ≤ w.toNat % 16 ∨
      ((w.toNat % 16 = 1 ∨ w.toNat % 16 = 2) ∧ w.toNat / 16 % 32 ≠ 0) := by
  have hfields : isIllegalWord w = (cmdRsv w != 0#23 || cmdOp w == 0#4 || decide (4#4 ≤ cmdOp w) ||
      ((cmdOp w == 1#4 || cmdOp w == 2#4) && cmdLen w != 0#5)) := rfl
  simp only [hfields, Bool.or_eq_true, Bool.and_eq_true, bne_iff_ne, beq_iff_eq, decide_eq_true_iff,
    BitVec.le_def, ne_eq, cmdOp_eq_iff, cmdLen_eq_iff, cmdRsv_eq_iff, cmdOp_toNat, or_assoc]
  rfl

theorem fields_of_append (rsv : BitVec 23) (len : BitVec 5) (op : BitVec 4) :
    cmdRsv (rsv ++ len ++ op) = rsv ∧ cmdLen (rsv ++ len ++ op) = len ∧
      cmdOp (rsv ++ len ++ op) = op := by
  simp only [cmdRsv_eq_iff, cmdLen_eq_iff, cmdOp_eq_iff, toNat_append_eq_add]
  omega

/-- A word of the row CTR_XOR (30_encoding.md R75), whatever its LEN. -/
abbrev IsCtrXorWord (w : Word) : Prop := cmdRsv w = 0#23 ∧ cmdOp w = 3#4

theorem isCtrXorWord_iff (w : Word) :
    IsCtrXorWord w ↔ w.toNat / 512 = 0 ∧ w.toNat % 16 = 3 := by
  rw [IsCtrXorWord, cmdRsv_eq_iff, cmdOp_eq_iff]
  rfl

/-! ## What a word is -/

/-- What `decode_cmd` makes of a word (30_encoding.md R74 to R77): the three legal rows, an illegal
word, and CTR_XOR with no legal length. -/
inductive Reading (w : Word) : Except ErrCode Command → Prop where
  | permFwd (hw : w = 0x00000001#32) : Reading w (.ok .permFwd)
  | permInv (hw : w = 0x00000002#32) : Reading w (.ok .permInv)
  | ctrXor (hw : IsCtrXorWord w) (hlen : legalLen (cmdLen w) = true) :
      Reading w (.ok (.ctrXor (cmdLen w)))
  | invalidLength (hw : IsCtrXorWord w) (hlen : legalLen (cmdLen w) = false) :
      Reading w (.error .invalidLength)
  | illegal (hw : isIllegalWord w = true) : Reading w (.error .illegalCommand)

theorem exists_reading (w : Word) : ∃ c, Reading w c := by
  by_cases hill : isIllegalWord w = true
  · exact ⟨_, .illegal hill⟩
  by_cases hctr : IsCtrXorWord w
  · cases hlen : legalLen (cmdLen w) with
    | true => exact ⟨_, .ctrXor hctr hlen⟩
    | false => exact ⟨_, .invalidLength hctr hlen⟩
  rw [isIllegalWord_iff] at hill
  rw [isCtrXorWord_iff] at hctr
  obtain h1 | h2 : w.toNat = 1 ∨ w.toNat = 2 := by omega
  · exact ⟨_, .permFwd (BitVec.eq_of_toNat_eq h1)⟩
  · exact ⟨_, .permInv (BitVec.eq_of_toNat_eq h2)⟩

theorem decodeCommand_illegal {w : Word} (hw : isIllegalWord w = true) :
    decodeCommand w = .error .illegalCommand := by
  rw [isIllegalWord_iff] at hw
  simp only [decodeCommand, cmdOp_eq_iff, cmdLen_eq_iff, cmdRsv_eq_iff, ne_eq, BitVec.toNat_ofNat]
  split_ifs
  · omega
  · omega
  · rfl
  · omega
  · omega
  · rfl
  · rfl

theorem decodeCommand_of_reading {w : Word} {c : Except ErrCode Command} (h : Reading w c) :
    decodeCommand w = c := by
  cases h with
  | permFwd hw | permInv hw => subst hw; rfl
  | ctrXor hw hlen | invalidLength hw hlen => simp [decodeCommand, hw, hlen]
  | illegal hw => exact decodeCommand_illegal hw

theorem reading_decodeCommand (w : Word) : Reading w (decodeCommand w) := by
  obtain ⟨c, hc⟩ := exists_reading w
  rwa [decodeCommand_of_reading hc]

theorem decodeCommand_eq_iff {w : Word} {c : Except ErrCode Command} :
    decodeCommand w = c ↔ Reading w c :=
  ⟨fun h => h ▸ reading_decodeCommand w, decodeCommand_of_reading⟩

theorem reading_ctrXor_iff {w : Word} {n : BitVec 5} :
    Reading w (.ok (.ctrXor n)) ↔ 1 ≤ n.toNat ∧ n.toNat ≤ 16 ∧ w.toNat = 3 + 16 * n.toNat := by
  have hlen := cmdLen_toNat w
  constructor
  · rintro (_ | _ | ⟨hw, hlegal⟩)
    rw [isCtrXorWord_iff] at hw
    rw [legalLen_iff] at hlegal
    omega
  · rintro ⟨h1, h16, hw⟩
    obtain rfl : n = cmdLen w := BitVec.eq_of_toNat_eq (by omega)
    exact .ctrXor ((isCtrXorWord_iff w).mpr (by omega)) ((legalLen_iff _).mpr ⟨h1, h16⟩)

theorem reading_invalidLength_iff {w : Word} :
    Reading w (.error .invalidLength) ↔ w.toNat / 512 = 0 ∧ w.toNat % 16 = 3 ∧
      (w.toNat / 16 % 32 = 0 ∨ 17 ≤ w.toNat / 16 % 32) := by
  have hlegal : legalLen (cmdLen w) = false ↔
      w.toNat / 16 % 32 = 0 ∨ 17 ≤ w.toNat / 16 % 32 := by
    rw [Bool.eq_false_iff, ne_eq, legalLen_iff, cmdLen_toNat]
    omega
  constructor
  · rintro (_ | _ | _ | ⟨hw, hlen⟩)
    obtain ⟨hrsv, hop⟩ := (isCtrXorWord_iff w).mp hw
    exact ⟨hrsv, hop, hlegal.mp hlen⟩
  · rintro ⟨hrsv, hop, hlen⟩
    exact .invalidLength ((isCtrXorWord_iff w).mpr ⟨hrsv, hop⟩) (hlegal.mpr hlen)

theorem reading_illegal_iff {w : Word} :
    Reading w (.error .illegalCommand) ↔ isIllegalWord w = true :=
  ⟨fun | .illegal hw => hw, .illegal⟩

theorem reading_ok_iff {w : Word} {c : Command} :
    Reading w (.ok c) ↔ (w.toNat = 1 ∧ c = .permFwd) ∨ (w.toNat = 2 ∧ c = .permInv) ∨
      (∃ n : BitVec 5, 1 ≤ n.toNat ∧ n.toNat ≤ 16 ∧ w.toNat = 3 + 16 * n.toNat ∧
        c = .ctrXor n) := by
  constructor
  · intro h
    cases c with
    | permFwd => cases h with | permFwd hw => exact .inl ⟨congrArg BitVec.toNat hw, rfl⟩
    | permInv => cases h with | permInv hw => exact .inr (.inl ⟨congrArg BitVec.toNat hw, rfl⟩)
    | ctrXor n =>
      obtain ⟨h1, h16, hw⟩ := reading_ctrXor_iff.mp h
      exact .inr (.inr ⟨n, h1, h16, hw, rfl⟩)
  · rintro (⟨hw, rfl⟩ | ⟨hw, rfl⟩ | ⟨n, h1, h16, hw, rfl⟩)
    · exact .permFwd (BitVec.eq_of_toNat_eq hw)
    · exact .permInv (BitVec.eq_of_toNat_eq hw)
    · exact reading_ctrXor_iff.mpr ⟨h1, h16, hw⟩

/-- Settles O8: each clause is the condition of one reading, with the fields as numbers. -/
theorem decodeOfCommandWords : Obligations.DecodeOfCommandWords := by
  intro w op len rsv
  refine ⟨fun c => ?_, ?_, ?_, fun _ => decodeCommand_error⟩
  · rw [decodeCommand_eq_iff, reading_ok_iff]
  · rw [decodeCommand_eq_iff, reading_illegal_iff, isIllegalWord_iff]
  · rw [decodeCommand_eq_iff, reading_invalidLength_iff]

/-! ## The row a word is filed under -/

theorem decodeCmdWord_ctrXor {w : Word} (hw : IsCtrXorWord w) :
    decodeCmdWord w = .ctrXor (cmdLen w) := by
  have h1 : w ≠ 0x00000001#32 := by rintro rfl; exact absurd hw (by decide)
  have h2 : w ≠ 0x00000002#32 := by rintro rfl; exact absurd hw (by decide)
  rw [decodeCmdWord, if_neg h1, if_neg h2, if_pos hw]

theorem decodeCmdWord_illegal {w : Word} (hw : isIllegalWord w = true) :
    decodeCmdWord w = .cmdIllegal w := by
  have h1 : w ≠ 0x00000001#32 := by rintro rfl; exact absurd hw (by decide)
  have h2 : w ≠ 0x00000002#32 := by rintro rfl; exact absurd hw (by decide)
  have hctr : ¬ IsCtrXorWord w := by
    rw [isIllegalWord_iff] at hw
    rw [isCtrXorWord_iff]
    omega
  rw [decodeCmdWord, if_neg h1, if_neg h2, if_neg hctr]

/-- The row of a word presents to CMD what `decode_cmd` answers for it. -/
theorem presented_decodeCmdWord (w : Word) :
    presented (decodeCmdWord w) = some (decodeCommand w) := by
  have hr := reading_decodeCommand w
  generalize decodeCommand w = c at hr
  cases hr with
  | permFwd hw | permInv hw => subst hw; rfl
  | ctrXor hw hlen | invalidLength hw hlen => simp [decodeCmdWord_ctrXor hw, presented, hlen]
  | illegal hw => rw [decodeCmdWord_illegal hw]; rfl

theorem exec_of_presented {i : Instr} {c : Except ErrCode Command} (h : presented i = some c)
    (s : State) : exec i s = .next (presentCommand c s) := by
  cases i with
  | permFwd | permInv | ctrXor | cmdIllegal | wrCmd => cases h; rfl
  | _ => cases h

/-- Settles O26: both present to CMD what the word decodes to. -/
theorem commandWordIsWriteToCmd : Obligations.CommandWordIsWriteToCmd := by
  intro w s
  rw [exec_of_presented (presented_decodeCmdWord w) s]
  rfl

/-! ## The round trips -/

theorem wellFormed_decodeCmdWord (w : Word) : (decodeCmdWord w).wellFormed = true := by
  obtain ⟨c, hr⟩ := exists_reading w
  cases hr with
  | permFwd hw | permInv hw => subst hw; rfl
  | ctrXor hw | invalidLength hw => rw [decodeCmdWord_ctrXor hw]; rfl
  | illegal hw => rw [decodeCmdWord_illegal hw]; exact hw

theorem encode_decodeCmdWord (w : Word) : encode (decodeCmdWord w) = .cmd w := by
  obtain ⟨c, hr⟩ := exists_reading w
  cases hr with
  | permFwd hw | permInv hw => subst hw; rfl
  | ctrXor hw | invalidLength hw =>
    obtain ⟨hrsv, hop⟩ := id hw
    rw [decodeCmdWord_ctrXor hw, encode, ← hrsv, ← hop, append_fields]
  | illegal hw => rw [decodeCmdWord_illegal hw]; rfl

theorem decodeCmdWord_append_ctrXor (n : BitVec 5) :
    decodeCmdWord (0#23 ++ n ++ 3#4) = .ctrXor n := by
  obtain ⟨hrsv, hlen, hop⟩ := fields_of_append 0#23 n 3#4
  rw [decodeCmdWord_ctrXor ⟨hrsv, hop⟩, hlen]

end Sys2Proof.Proofs
end

