-- ==== Sys2Proof/Proofs/RoundTrip.lean ====
section
/-! PROOF. Decoder and encoder undo each other (30_encoding.md R70 to R77, 20_memory.md R52): bus
requests by the rows of the register map, command words by the rows of format CMD. -/

namespace Sys2Proof.Proofs

open Sys2Proof.Machine Sys2Proof.Laws

/-- Settles O5: an instruction is a request for a word of its row of the map, or a command word. -/
theorem decodeOfEncode : Obligations.DecodeOfEncode := by
  intro i hi
  cases i with
  | permFwd | permInv => rfl
  | ctrXor n => exact congrArg Except.ok (decodeCmdWord_append_ctrXor n)
  | cmdIllegal w => exact congrArg Except.ok (decodeCmdWord_illegal hi)
  | rdCmd => exact isRow_cmd.decode_encode 0 none
  | wrCmd d => exact isRow_cmd.decode_encode 0 (some d)
  | rdStatus => exact isRow_status.decode_encode 0 none
  | wrStatus d => exact isRow_status.decode_encode 0 (some d)
  | rdReserved08 k => exact isRow_reserved08.decode_encode k none
  | wrReserved08 k d => exact isRow_reserved08.decode_encode k (some d)
  | rdKey j => exact isRow_key.decode_encode j none
  | wrKey j d => exact isRow_key.decode_encode j (some d)
  | rdCtr j => exact isRow_ctr.decode_encode j none
  | wrCtr j d => exact isRow_ctr.decode_encode j (some d)
  | rdIn j => exact isRow_in.decode_encode j none
  | wrIn j d => exact isRow_in.decode_encode j (some d)
  | rdOut j => exact isRow_out.decode_encode j none
  | wrOut j d => exact isRow_out.decode_encode j (some d)
  | rdReserved50 k => exact isRow_reserved50.decode_encode k none
  | wrReserved50 k d => exact isRow_reserved50.decode_encode k (some d)
  | rdReserved60 k => exact isRow_reserved60.decode_encode k none
  | wrReserved60 k d => exact isRow_reserved60.decode_encode k (some d)
  | rdReserved80 k => exact isRow_reserved80.decode_encode k none
  | wrReserved80 k d => exact isRow_reserved80.decode_encode k (some d)
  | refusedUnaligned1 h wdata => exact isRow_unaligned1.decode_encode h wdata
  | refusedUnaligned2 h wdata => exact isRow_unaligned2.decode_encode h wdata
  | refusedUnaligned3 h wdata => exact isRow_unaligned3.decode_encode h wdata

/-- Settles O6: a bus request that decodes is a word of a row, which encodes back to it; a command
word is in the row of its reading. -/
theorem encodeOfDecode : Obligations.EncodeOfDecode := by
  intro r i h
  cases r with
  | bus r =>
    have hencode := encode_of_decodeBus h
    exact ⟨wellFormed_of_encode_bus hencode, hencode⟩
  | cmd w =>
    obtain rfl : decodeCmdWord w = i := Except.ok.inj h
    exact ⟨wellFormed_decodeCmdWord w, encode_decodeCmdWord w⟩

/-- Settles O7: each of the eleven words is decoded. -/
theorem specWordsDecode : Obligations.SpecWordsDecode := by
  unfold Obligations.SpecWordsDecode
  decide

end Sys2Proof.Proofs
end

