-- ==== Sys2Proof/Proofs/HostLoads.lean ====
section
/-! PROOF. The load pseudo-instructions (30_encoding.md R81): on an idle block the four writes of a
window store it whole, whichever of the three windows it is. -/

namespace Sys2Proof.Proofs

open Sys2Proof.Machine Sys2Proof.Laws

/-- The four words of a window, stored one after the other. -/
def storeWords (store : Fin 4 → Word → State → State) (q : Quad) (s : State) : State :=
  store 3 q.w3 (store 2 q.w2 (store 1 q.w1 (store 0 q.w0 s)))

/-- Writing the registers `reg` has the effect `store` on an idle block, and leaves it idle. -/
structure WritesAs (reg : Fin 4 → HostReg) (store : Fin 4 → Word → State → State) : Prop where
  takes : ∀ (j : Fin 4) (d : Word) (s : State), s.busy = false →
    takeRequest (writeReq (regOffset (reg j)) d) s = .next (store j d s)
  idle : ∀ (j : Fin 4) (d : Word) (s : State), (store j d s).busy = s.busy

/-- A write under the busy rule has its effect on an idle block. -/
theorem writesAs_of_decode {reg : Fin 4 → HostReg} {wr : Fin 4 → Word → Instr}
    {store : Fin 4 → Word → State → State}
    (hdecode : ∀ j d, decode (writeReq (regOffset (reg j)) d) = .ok (wr j d))
    (hexec : ∀ j d s, exec (wr j d) s = .next (unlessBusy (store j d) s))
    (idle : ∀ (j : Fin 4) (d : Word) (s : State), (store j d s).busy = s.busy) :
    WritesAs reg store where
  takes j d s hb := by rw [takeRequest_of_decode (hdecode j d), hexec, unlessBusy_idle _ hb]
  idle := idle

theorem writesAs_key : WritesAs .key storeKey :=
  writesAs_of_decode (fun j d => isRow_key.decode_rawReq j (some d)) (fun _ _ _ => rfl)
    fun _ _ _ => rfl

theorem writesAs_ctr : WritesAs .ctr storeCtr :=
  writesAs_of_decode (fun j d => isRow_ctr.decode_rawReq j (some d)) (fun _ _ _ => rfl)
    fun _ _ _ => rfl

theorem writesAs_in : WritesAs .inp storeIn :=
  writesAs_of_decode (fun j d => isRow_in.decode_rawReq j (some d)) (fun _ _ _ => rfl)
    fun _ _ _ => rfl

theorem runHost_request {r : Request} {ops : List HostOp} {s t : State}
    (h : takeRequest r s = .next t) : runHost (.request r :: ops) s = runHost ops t := by
  simp only [runHost, h]

theorem runHost_hostStore {reg : Fin 4 → HostReg} {store : Fin 4 → Word → State → State}
    (h : WritesAs reg store) (q : Quad) {s : State} (hb : s.busy = false) :
    runHost (hostStore reg q) s = .next (storeWords store q s) := by
  have hwrite (j : Fin 4) (d : Word) (ops : List HostOp) {u : State} (hu : u.busy = false) :
      runHost (hostWr (reg j) d :: ops) u = runHost ops (store j d u) :=
    runHost_request (h.takes j d u hu)
  rw [hostStore, hwrite 0 q.w0, hwrite 1, hwrite 2, hwrite 3]
  · rfl
  all_goals simp only [h.idle, hb]

/-- Once all four words are stored, nothing is left of the window before. -/
theorem setWord_all (p q : Quad) :
    setWord (setWord (setWord (setWord p 0 q.w0) 1 q.w1) 2 q.w2) 3 q.w3 = q := rfl

/-- Once all four words are stored, the write mask is full (10_state.md R31, R33). -/
theorem setMaskBit_all (m : BitVec 4) :
    setMaskBit (setMaskBit (setMaskBit (setMaskBit m 0) 1) 2) 3 = 0b1111#4 := by
  revert m
  decide

theorem storeWords_storeKey (q : Quad) (s : State) :
    storeWords storeKey q s = { s with key := q, keyWr := 0b1111#4 } := by
  simp only [storeWords, storeKey, setMaskBit_all, setWord_all]

theorem storeWords_storeCtr (q : Quad) (s : State) :
    storeWords storeCtr q s = { s with ctr := q, ctrWr := 0b1111#4 } := by
  simp only [storeWords, storeCtr, setMaskBit_all, setWord_all]

theorem storeWords_storeIn (q : Quad) (s : State) :
    storeWords storeIn q s = { s with inp := q } := by
  simp only [storeWords, storeIn, setWord_all]

theorem runHost_ldkey (b : Bytes16) {s : State} (hb : s.busy = false) :
    runHost (hostLdkey b) s = .next { s with key := wordsOf b, keyWr := 0b1111#4 } := by
  rw [hostLdkey, runHost_hostStore writesAs_key _ hb, storeWords_storeKey]

theorem runHost_ldctr (c : BitVec 128) {s : State} (hb : s.busy = false) :
    runHost (hostLdctr c) s = .next { s with ctr := counterWords c, ctrWr := 0b1111#4 } := by
  rw [hostLdctr, ← counterWords_eq_bswap32, runHost_hostStore writesAs_ctr _ hb,
    storeWords_storeCtr]

theorem runHost_ldin (l : List Byte) {s : State} (hb : s.busy = false) :
    runHost (hostLdin l) s = .next { s with inp := wordsOf (padBytes l) } := by
  rw [hostLdin, runHost_hostStore writesAs_in _ hb, storeWords_storeIn]

/-- Settles O46: each load stores a whole window, whose bytes the packing gives back. -/
theorem loadPseudoInstructions : Obligations.LoadPseudoInstructions := by
  intro s b c l hb
  refine ⟨⟨_, runHost_ldkey b hb, bytesOf_wordsOf b, rfl, rfl⟩,
    ⟨_, runHost_ldctr c hb, counterValue_counterWords c, rfl, rfl⟩,
    ⟨_, runHost_ldin l hb, rfl, fun i => ?_⟩⟩
  exact congrFun (bytesOf_wordsOf (padBytes l)) i

end Sys2Proof.Proofs
end

