-- ==== Sys2Proof/Proofs/PlacedWords.lean ====
section
/-! PROOF. Two turns of the host: the word of the opcode table placed as its next operation, and a
poll of `wait` (30_encoding.md R70, R81). -/

namespace Sys2Proof.Proofs

open Sys2Proof.Machine Sys2Proof.Laws

theorem decode_tableRequest {nbits w : Nat} {i : Instr} (h : decodeTableWord nbits w = some i) :
    decode (tableRequest nbits w) = .ok i := by
  unfold decodeTableWord at h
  cases hd : decode (tableRequest nbits w) with
  | ok i' => rw [hd] at h; exact congrArg Except.ok (Option.some.inj h)
  | error e => rw [hd] at h; cases h

/-- Settles O10: the placed word is the host's next request, and taking it leaves the operations and
the turns that stood there before. -/
theorem placedWordRunsNext : Obligations.PlacedWordRunsNext := by
  intro s nbits w i h
  exact stepRunsDecodedInstruction (s.withFetchWord nbits w) (tableRequest nbits w) s.pending i rfl
    rfl (decode_tableRequest h)

/-- Settles O59: the value read is STATUS, whose bit 0 is BUSY. -/
theorem waitPollsStatus : Obligations.WaitPollsStatus := by
  intro s rest ha hp
  have hpoll : step s = pollStatus (setPending rest (popTurn s)) := by
    rw [step_of_host ha, hostTurn_of_pending ((popTurn_pending s).trans hp), hostOperation]
  refine ⟨statusWord s, rfl, by rw [statusWord_bit0], ?_⟩
  rw [hpoll, pollStatus_eq, statusWord_bit0]
  by_cases hb : s.busy = true
  · have hpolled : (setPending rest (popTurn s)).busy = true := hb
    rw [if_pos hpolled, if_pos hb]
    rfl
  · have hpolled : ¬ (setPending rest (popTurn s)).busy = true := hb
    rw [if_neg hpolled, if_neg hb]
    rfl

end Sys2Proof.Proofs
end

