-- ==== Sys2Proof/Proofs/BusAccess.lean ====
section
/-! PROOF. What each bus read and each bus write does (40_host_interface.md R92 to R105): the read
data, the busy rule over the stores, and the command write with its checks in order. -/

namespace Sys2Proof.Proofs

open Sys2Proof.Machine Sys2Proof.Laws

/-! ## Reads -/

/-- Settles O13: each of the reads answers 0 by its meaning. -/
theorem readsThatReturnZero : Obligations.ReadsThatReturnZero :=
  fun _ _ _ _ _ _ => ⟨rfl, rfl, rfl, rfl, rfl, rfl⟩

/-- Settles O14: each of the reads answers its register by its meaning. -/
theorem readsOfWindows : Obligations.ReadsOfWindows :=
  fun _ _ => ⟨rfl, rfl, rfl⟩

/-- STATUS as a number, by the layout of 10_state.md R28. -/
theorem statusWord_toNat (s : State) :
    (statusWord s).toNat = s.busy.toNat + 2 * s.done.toNat + 16 * (errCodeBits s.err).toNat +
      256 * (keyValid s).toNat + 512 * (ctrValid s).toNat := by
  have hbusy := s.busy.toNat_le
  have hdone := s.done.toNat_le
  have herr := (errCodeBits s.err).isLt
  have hkey := (keyValid s).toNat_le
  have hctr := (ctrValid s).toNat_le
  simp only [statusWord, BitVec.toNat_setWidth, toNat_append_eq_add, BitVec.toNat_ofBool,
    BitVec.toNat_ofNat]
  omega

/-- Settles O15: the value read is STATUS, and the codes of ERR are the numbers of R30. -/
theorem readOfStatus : Obligations.ReadOfStatus := by
  intro s
  refine ⟨statusWord s, rfl, ?_⟩
  rw [statusWord_toNat]
  cases s.err <;> rfl

/-! ## Writes -/

theorem exec_unlessBusy_busy {i : Instr} {write : State → State} {s : State}
    (hexec : exec i s = .next (unlessBusy write s)) (hb : s.busy = true) :
    exec i s = .next (dropWrite s) := by
  rw [hexec, unlessBusy_busy write hb]

theorem exec_unlessBusy_idle {i : Instr} {write : State → State} {s : State}
    (hexec : exec i s = .next (unlessBusy write s)) (hb : s.busy = false) :
    exec i s = .next (write s) := by
  rw [hexec, unlessBusy_idle write hb]

theorem wordAt_setWord (q : Quad) (j : Fin 4) (d : Word) (k : Fin 4) :
    wordAt (setWord q j d) k = if k = j then d else wordAt q k := by
  split_ifs with hkj
  · rw [hkj, wordAt_setWord_same]
  · exact wordAt_setWord_other q d hkj

theorem setMaskBit_getLsbD_eq_ite (m : BitVec 4) (j k : Fin 4) :
    (setMaskBit m j).getLsbD k.val = if k = j then true else m.getLsbD k.val := by
  rw [setMaskBit_getLsbD]
  by_cases hkj : k = j <;> simp [hkj]

/-- A write mask is full once all four of its bits are set (10_state.md R31). -/
theorem maskFull_iff (m : BitVec 4) : m = 0b1111#4 ↔ ∀ k : Fin 4, m.getLsbD k.val = true := by
  revert m
  decide

/-- Settles O16: the store of a word under the busy rule. -/
theorem keyWrite : Obligations.KeyWrite := by
  intro s j d
  have hexec : exec (.wrKey j d) s = .next (unlessBusy (storeKey j d) s) := rfl
  refine ⟨exec_unlessBusy_busy hexec, fun hb => ⟨setWord s.key j d, setMaskBit s.keyWr j,
    exec_unlessBusy_idle hexec hb, wordAt_setWord s.key j d,
    setMaskBit_getLsbD_eq_ite s.keyWr j, ?_⟩⟩
  rw [keyValid_iff, maskFull_iff]

/-- Settles O17: the store of a word under the busy rule. -/
theorem counterWrite : Obligations.CounterWrite := by
  intro s j d
  have hexec : exec (.wrCtr j d) s = .next (unlessBusy (storeCtr j d) s) := rfl
  refine ⟨exec_unlessBusy_busy hexec, fun hb => ⟨setWord s.ctr j d, setMaskBit s.ctrWr j,
    exec_unlessBusy_idle hexec hb, wordAt_setWord s.ctr j d,
    setMaskBit_getLsbD_eq_ite s.ctrWr j, ?_⟩⟩
  rw [ctrValid_iff, maskFull_iff]

/-- Settles O18: the store of a word under the busy rule. -/
theorem inputWrite : Obligations.InputWrite := by
  intro s j d
  have hexec : exec (.wrIn j d) s = .next (unlessBusy (storeIn j d) s) := rfl
  exact ⟨exec_unlessBusy_busy hexec, fun hb =>
    ⟨setWord s.inp j d, exec_unlessBusy_idle hexec hb, wordAt_setWord s.inp j d⟩⟩

/-- Settles O19: none of these writes has an effect in its meaning, nor asks for BUSY. -/
theorem ignoredWrites : Obligations.IgnoredWrites :=
  fun _ _ _ _ _ _ _ => ⟨rfl, rfl, rfl, rfl, rfl, rfl⟩

/-! ## The command write -/

theorem needsCounter_iff (c : Command) : needsCounter c = true ↔ commandOp c = .ctrXor := by
  cases c <;> simp [needsCounter, commandOp]

@[simp] theorem wordAt_xorQuad (p q : Quad) (j : Fin 4) :
    wordAt (xorQuad p q) j = wordAt p j ^^^ wordAt q j := by
  match j with
  | 0 | 1 | 2 | 3 => rfl

theorem wordAt_inputBlock (op : Opcode) (s : State) (j : Fin 4) :
    wordAt (inputBlock op s) j = if op = .ctrXor then wordAt s.ctr j else wordAt s.inp j := by
  cases op <;> rfl

theorem checkCommand_of_noKey (c : Command) {s : State} (hk : s.keyWr ≠ 0b1111#4) :
    checkCommand (.ok c) s = rejectCommand .missingKey s := by
  rw [ne_eq, ← keyValid_iff, Bool.not_eq_true] at hk
  exact if_pos hk

theorem checkCommand_of_fullKey (c : Command) {s : State} (hk : s.keyWr = 0b1111#4) :
    checkCommand (.ok c) s =
      if commandOp c = .ctrXor ∧ s.ctrWr ≠ 0b1111#4 then rejectCommand .missingCounterState s
      else acceptCommand c s := by
  rw [← keyValid_iff] at hk
  simp only [checkCommand, hk, needsCounter_iff, ← Bool.not_eq_true, ctrValid_iff, not_true_eq_false,
    if_false, ne_eq]

/-- Settles O22: the busy rule, then the checks in their order. -/
theorem commandWrite : Obligations.CommandWrite := by
  intro s d
  have hexec : exec (.wrCmd d) s = .next (presentCommand (decodeCommand d) s) := rfl
  refine ⟨exec_unlessBusy_busy hexec, fun hb code hd => ?_, fun hb c hd => ⟨fun hk => ?_,
    fun hk hop hctr => ?_, fun hk hctr => ⟨xorQuad (inputBlock (commandOp c) s) s.key,
      fun j => by rw [wordAt_xorQuad, wordAt_inputBlock], ?_⟩⟩⟩ <;>
    rw [exec_unlessBusy_idle hexec hb, hd]
  · rfl
  · rw [checkCommand_of_noKey c hk]; rfl
  · rw [checkCommand_of_fullKey c hk, if_pos ⟨hop, hctr⟩]; rfl
  · rw [checkCommand_of_fullKey c hk, if_neg fun hno => hno.2 (hctr hno.1)]; rfl

end Sys2Proof.Proofs
end

