-- ==== Sys2Proof/Proofs/BusWindow.lean ====
section
/-! PROOF. The requests of the whole window (20_memory.md R51, R57, R58, 40_host_interface.md R90,
R99, R108): which are taken, which are refused, and what a write does by its offset. -/

namespace Sys2Proof.Proofs

open Sys2Proof.Machine Sys2Proof.Laws

/-! ## Taken and refused -/

/-- Settles O12: the three rows have no other meaning. -/
theorem unalignedRowsAreRefused : Obligations.UnalignedRowsAreRefused :=
  fun _ _ _ => ⟨rfl, rfl, rfl⟩

theorem takeRequest_of_error {r : Request} {e : DecodeError} (hd : decode r = .error e) (s : State) :
    takeRequest r s = .refused (decodeRefusal e) := by
  rw [takeRequest, hd]

theorem decode_outOfWindow {off : Nat} (hoff : 0xFF < off) (wdata : Option Word) :
    decode (rawReq off wdata) = .error .outOfWindow :=
  if_pos hoff

theorem decode_notWordAccess {b : BusRequest} (hwidth : b.width ≠ 32) :
    decode (.bus b) = .error .notWordAccess :=
  if_pos hwidth

/-- An instruction of the bus is refused exactly where its offset is unaligned. -/
theorem exec_of_encode_bus {i : Instr} {off : Nat} {wdata : Option Word}
    (h : encode i = rawReq off wdata) (s : State) :
    (off % 4 = 0 ∧ ∃ t, exec i s = .next t) ∨ (off % 4 ≠ 0 ∧ exec i s = refuseOffset) := by
  cases i with
  | permFwd | permInv | ctrXor | cmdIllegal => cases h
  | refusedUnaligned1 | refusedUnaligned2 | refusedUnaligned3 =>
    cases h
    exact .inr ⟨by rw [offWord]; omega, rfl⟩
  | rdCmd | wrCmd | rdStatus | wrStatus =>
    cases h
    exact .inl ⟨rfl, _, rfl⟩
  | _ =>
    cases h
    exact .inl ⟨Nat.add_mul_mod_self_left _ 4 _, _, rfl⟩

theorem takeRequest_inWindow {off : Nat} (hoff : off ≤ 0xFF) (wdata : Option Word) (s : State) :
    (off % 4 = 0 ∧ ∃ t, takeRequest (rawReq off wdata) s = .next t) ∨
    (off % 4 ≠ 0 ∧ takeRequest (rawReq off wdata) s = refuseOffset) := by
  obtain ⟨n, base, row, k, hrow, rfl⟩ := inSomeRow_of_le hoff
  rw [takeRequest_of_decode (hrow.decode_rawReq k wdata)]
  exact exec_of_encode_bus (hrow.encodes k wdata) s

/-- Settles O11: inside the window the alignment decides; past it, and for another width, there is
no instruction to run. A command word is always one of the command rows. -/
theorem onlyTransactionsAreTaken : Obligations.OnlyTransactionsAreTaken := by
  rintro s ⟨off, width, wdata⟩ w
  refine ⟨?_, ?_, fun hwidth => takeRequest_of_error (decode_notWordAccess hwidth) s,
    _, exec_of_presented (presented_decodeCmdWord w) s⟩
  · rintro rfl haligned hle
    obtain ⟨-, ht⟩ | ⟨hunaligned, -⟩ :=
      takeRequest_inWindow (Nat.le_trans hle (by decide)) wdata s
    · exact ht
    · exact absurd haligned hunaligned
  · rintro rfl (hbad : off % 4 ≠ 0 ∨ 0xFC < off)
    by_cases hoff : 0xFF < off
    · exact takeRequest_of_error (decode_outOfWindow hoff wdata) s
    · obtain ⟨haligned, -⟩ | ⟨-, hrefused⟩ := takeRequest_inWindow (Nat.le_of_not_lt hoff) wdata s
      · omega
      · exact hrefused

/-! ## The busy rule by the offset of the write -/

/-- Where every word of a row answers a write alike, so does every offset of the row. -/
theorem IsRow.takeRequest_write {n base off : Nat} {row : Fin n → Option Word → Instr} {d : Word}
    {s : State} {a : Answer} (h : IsRow base row) (hexec : ∀ k, exec (row k (some d)) s = a)
    (hoff : base ≤ off ∧ off < base + 4 * n ∧ off % 4 = base % 4) :
    takeRequest (writeReq off d) s = a := by
  obtain ⟨k, rfl⟩ : ∃ k : Fin n, off = offWord base k :=
    ⟨⟨(off - base) / 4, by omega⟩, by simp only [offWord]; omega⟩
  rw [← hexec k]
  exact takeRequest_of_decode (h.decode_rawReq k (some d)) s

/-- A write to CMD, KEY, CTR or IN is dropped while BUSY = 1 (40_host_interface.md R99). -/
theorem takeRequest_write_dropped {s : State} {off : Nat} (hb : s.busy = true)
    (haligned : off % 4 = 0) (hoff : off = 0x00 ∨ (0x10 ≤ off ∧ off ≤ 0x3C)) (d : Word) :
    takeRequest (writeReq off d) s = .next (dropWrite s) := by
  by_cases hcmd : off < 0x10
  · exact isRow_cmd.takeRequest_write (fun _ => exec_unlessBusy_busy rfl hb) (by rw [offCmd]; omega)
  by_cases hkey : off < 0x20
  · exact isRow_key.takeRequest_write (fun _ => exec_unlessBusy_busy rfl hb) (by rw [baseKey]; omega)
  by_cases hctr : off < 0x30
  · exact isRow_ctr.takeRequest_write (fun _ => exec_unlessBusy_busy rfl hb) (by rw [baseCtr]; omega)
  · exact isRow_in.takeRequest_write (fun _ => exec_unlessBusy_busy rfl hb) (by rw [baseIn]; omega)

/-- A write to STATUS, OUT or a reserved offset is ignored (40_host_interface.md R105). -/
theorem takeRequest_write_ignored {off : Nat} (haligned : off % 4 = 0) (hle : off ≤ 0xFC)
    (hoff : (0x04 ≤ off ∧ off ≤ 0x0C) ∨ 0x40 ≤ off) (d : Word) (s : State) :
    takeRequest (writeReq off d) s = .next s := by
  by_cases hstatus : off < 0x08
  · exact isRow_status.takeRequest_write (fun _ => rfl) (by rw [offStatus]; omega)
  by_cases h08 : off < 0x10
  · exact isRow_reserved08.takeRequest_write (fun _ => rfl) (by omega)
  by_cases hout : off < 0x50
  · exact isRow_out.takeRequest_write (fun _ => rfl) (by rw [baseOut]; omega)
  by_cases h50 : off < 0x60
  · exact isRow_reserved50.takeRequest_write (fun _ => rfl) (by omega)
  by_cases h60 : off < 0x80
  · exact isRow_reserved60.takeRequest_write (fun _ => rfl) (by omega)
  · exact isRow_reserved80.takeRequest_write (fun _ => rfl) (by omega)

/-- Settles O20: an aligned offset is that of a register under the busy rule or of an ignored
write; while BUSY = 0 each of the former is the word of its row. -/
theorem busyRuleOverTheWindow : Obligations.BusyRuleOverTheWindow := by
  intro s off d haligned hle
  refine ⟨fun hb => ?_, fun _ => ⟨?_, ?_, ?_, ?_, fun hoff =>
    takeRequest_write_ignored haligned hle hoff d s⟩⟩
  · split_ifs with hoff
    · exact takeRequest_write_dropped hb haligned hoff d
    · exact takeRequest_write_ignored haligned hle (by omega) d s
  · rintro rfl
    exact takeRequest_of_decode (isRow_cmd.decode_rawReq 0 (some d)) s
  · rintro j rfl
    exact takeRequest_of_decode (isRow_key.decode_rawReq j (some d)) s
  · rintro j rfl
    exact takeRequest_of_decode (isRow_ctr.decode_rawReq j (some d)) s
  · rintro j rfl
    exact takeRequest_of_decode (isRow_in.decode_rawReq j (some d)) s

end Sys2Proof.Proofs
end

