-- ==== Sys2Proof/Proofs/InstructionFrames.lean ====
section
/-! PROOF. What instructions leave unchanged (40_host_interface.md R91, R99 to R107, 60_exceptions.md
R196, R197): the core's registers but for an accepted command, and while BUSY = 1 everything but ERR
and the values read, for an instruction and for a whole turn of the host. -/

namespace Sys2Proof.Proofs

open Sys2Proof.Machine Sys2Proof.Laws

/-! ## The core's registers -/

/-- From `s` to `t` nothing has changed but the windows and masks a host writes, DONE, ERR and the
values read: not the core, nor OUT, nor what the host and the agents have still to do. -/
abbrev CoreUnmoved (s t : State) : Prop :=
  t = { s with
    key := t.key, ctr := t.ctr, inp := t.inp, done := t.done, err := t.err, keyWr := t.keyWr,
    ctrWr := t.ctrWr, reads := t.reads }

theorem coreUnmoved_unlessBusy {s : State} {write : State → State} (h : CoreUnmoved s (write s)) :
    CoreUnmoved s (unlessBusy write s) :=
  iteInduction (motive := CoreUnmoved s) (fun _ => rfl) fun _ => h

/-- An instruction that presents a legal command is a command word or the write of one to CMD. -/
theorem presentsWord_of_presented_ok {i : Instr} {c : Command} (h : presented i = some (.ok c)) :
    ∃ w, PresentsWord i w := by
  cases i with
  | permFwd => exact ⟨0x00000001#32, .inr rfl⟩
  | permInv => exact ⟨0x00000002#32, .inr rfl⟩
  | ctrXor n => exact ⟨_, .inr (decodeCmdWord_append_ctrXor n).symm⟩
  | wrCmd d => exact ⟨d, .inl rfl⟩
  | _ => cases h

/-- A presented command moves the core only where it is accepted. -/
theorem coreUnmoved_or_accept_of_presentCommand (c : Except ErrCode Command) (s : State) :
    CoreUnmoved s (presentCommand c s) ∨
    (s.busy = false ∧ ∃ c', c = .ok c' ∧ presentCommand c s = acceptCommand c' s) := by
  rcases presentCommand_cases c s with ⟨-, ht⟩ | ⟨-, code, -, ht⟩ |
    ⟨hb, c', hc, ⟨-, ht⟩ | ⟨-, -, -, ht⟩ | ⟨-, -, ht⟩⟩ <;> rw [ht]
  · exact .inl rfl
  · exact .inl rfl
  · exact .inl rfl
  · exact .inl rfl
  · exact .inr ⟨hb, c', hc, rfl⟩

/-- An instruction moves the core only as a command word that is accepted. -/
theorem coreUnmoved_or_accept_of_exec {i : Instr} {s t : State} (h : exec i s = .next t) :
    CoreUnmoved s t ∨
    (s.busy = false ∧ (∃ w, PresentsWord i w) ∧ ∃ c, t = acceptCommand c s) := by
  rcases exec_cases h with ⟨c, hc, rfl⟩ | ⟨d, rfl⟩ | rfl | ⟨j, d, -, rfl⟩ | ⟨j, d, -, rfl⟩ |
    ⟨j, d, -, rfl⟩
  · refine (coreUnmoved_or_accept_of_presentCommand c s).imp_right ?_
    rintro ⟨hidle, c', rfl, ht⟩
    exact ⟨hidle, presentsWord_of_presented_ok hc, c', ht⟩
  · exact .inl rfl
  · exact .inl rfl
  · exact .inl (coreUnmoved_unlessBusy rfl)
  · exact .inl (coreUnmoved_unlessBusy rfl)
  · exact .inl (coreUnmoved_unlessBusy rfl)

/-- Settles O27: an accepted command sets the core's registers and nothing else of the frame, and
any other instruction leaves all of them. -/
theorem instructionFrame : Obligations.InstructionFrame := by
  intro i s t h
  rcases coreUnmoved_or_accept_of_exec h with ht | ⟨hidle, hword, c, rfl⟩
  · rw [ht]
    exact ⟨rfl, rfl, rfl, rfl, .inl ⟨rfl, rfl, rfl, rfl, rfl⟩⟩
  · exact ⟨rfl, rfl, rfl, rfl, .inr ⟨hidle, rfl, hword⟩⟩

/-! ## While a command runs -/

/-- Everything an instruction can do while BUSY = 1: nothing, drop a write, or return a value. -/
theorem exec_busy_cases {i : Instr} {s t : State} (hb : s.busy = true) (h : exec i s = .next t) :
    t = s ∨ t = dropWrite s ∨ ∃ x, t = readReturns x s := by
  rcases exec_cases h with ⟨c, -, rfl⟩ | ⟨x, rfl⟩ | rfl | ⟨j, d, -, rfl⟩ | ⟨j, d, -, rfl⟩ |
    ⟨j, d, -, rfl⟩
  · exact .inr (.inl (unlessBusy_busy (checkCommand c) hb))
  · exact .inr (.inr ⟨x, rfl⟩)
  · exact .inl rfl
  · exact .inr (.inl (unlessBusy_busy _ hb))
  · exact .inr (.inl (unlessBusy_busy _ hb))
  · exact .inr (.inl (unlessBusy_busy _ hb))

/-- Settles O33: neither a dropped write nor a read changes anything else. -/
theorem noInstructionDisturbsTheCore : Obligations.NoInstructionDisturbsTheCore := by
  intro i s t hb h
  rcases exec_busy_cases hb h with rfl | rfl | ⟨x, rfl⟩
  · exact ⟨rfl, .inl rfl, .inl rfl⟩
  · exact ⟨rfl, .inr rfl, .inl rfl⟩
  · exact ⟨rfl, .inl rfl, .inr ⟨x, rfl⟩⟩

theorem statusWord_resetBlock (s : State) : statusWord (resetBlock s) = 0x00000000#32 := by
  have hreset : statusWord State.reset = 0x00000000#32 := by decide
  exact hreset

theorem hostDoes_iff {s : State} {op op' : HostOp} {rest : List HostOp} (ha : nextAgent s = .host)
    (hp : s.pending = op' :: rest) : HostDoes s op ↔ op' = op := by
  simp [HostDoes, ha, hp]

theorem step_of_reset {s : State} (h : HostDoes s .reset) :
    step s = .next (resetBlock (setPending s.pending.tail (popTurn s))) := by
  obtain ⟨ha, hp⟩ := h
  obtain ⟨rest, hp⟩ := List.head?_eq_some_iff.mp hp
  rw [step_of_host ha, hostTurn_of_pending ((popTurn_pending s).trans hp), hp]
  rfl

/-- Settles O58: a reset clears the block, and of the host's other turns only a request runs an
instruction, which O33 speaks of. -/
theorem hostTurnWhileBusy : Obligations.HostTurnWhileBusy := by
  intro s t ha hb h
  constructor
  · intro hreset
    obtain rfl := Host.Outcome.next.inj ((step_of_reset hreset).symm.trans h)
    exact ⟨rfl, rfl, rfl, rfl, rfl, rfl, statusWord_resetBlock _, rfl, rfl, rfl⟩
  · intro hnoreset
    rcases step_cases h with ⟨hcore, -⟩ | ⟨-, hp, rfl⟩ | ⟨-, rest, hp, -⟩ | ⟨-, rest, hp, rfl⟩ |
      ⟨-, r, rest, i, hp, hd, hx⟩
    · rw [ha] at hcore; cases hcore
    · exact ⟨rfl, .inl rfl, .inl rfl, .inl (by simp [hp])⟩
    · exact absurd ((hostDoes_iff ha hp).mpr rfl) hnoreset
    · rw [if_pos hb]
      exact ⟨rfl, .inl rfl, .inr ⟨_, rfl⟩, .inr ⟨(hostDoes_iff ha hp).mpr rfl, rfl⟩⟩
    · obtain ⟨ht, herr, hreads⟩ :=
        noInstructionDisturbsTheCore i (setPending rest (popTurn s)) t hb hx
      have hpending : t.pending = rest := congrArg State.pending ht
      have htakes : HostTakes s i := ⟨r, (hostDoes_iff ha hp).mpr rfl, hd⟩
      rw [hpending, hp]
      exact ⟨ht, herr.imp_right fun hbusy => ⟨hbusy, i, htakes⟩, hreads, .inl rfl⟩

end Sys2Proof.Proofs
end

