-- ==== Sys2Proof/Proofs/WordOperators.lean ====
section
/-! PROOF. The word operators of the datapath (41_permutation.md R120, R121, R123, R124) are those of
the library, and SUB32 and ADD32, and the two rotations by one amount, undo each other. -/

namespace Sys2Proof.Proofs

open Sys2Proof.Machine

/-! ## Sum and difference -/

theorem add32_eq_add (a b : Word) : add32 a b = a + b := by
  apply BitVec.eq_of_toNat_eq
  rw [add32, BitVec.toNat_ofNat, BitVec.toNat_add]

theorem sub32_toNat (a b : Word) :
    ((sub32 a b).toNat : Int) = ((a.toNat : Int) - b.toNat) % 2 ^ 32 := by
  rw [sub32, BitVec.toNat_ofInt]
  omega

theorem sub32_eq_sub (a b : Word) : sub32 a b = a - b := by
  apply BitVec.eq_of_toNat_eq
  have hsub := sub32_toNat a b
  rw [BitVec.toNat_sub]
  omega

@[simp] theorem sub32_add32 (a b : Word) : sub32 (add32 a b) b = a := by
  rw [add32_eq_add, sub32_eq_sub, BitVec.add_sub_cancel]

@[simp] theorem add32_sub32 (a b : Word) : add32 (sub32 a b) b = a := by
  rw [add32_eq_add, sub32_eq_sub, BitVec.sub_add_cancel]

/-- Settles O34: both operators are defined by their numbers. -/
theorem addSubModulo : Obligations.AddSubModulo :=
  fun a b => ⟨BitVec.toNat_ofNat _ _, sub32_toNat a b, sub32_add32 a b⟩

/-! ## Rotations -/

theorem rotl32_eq_rotateLeft (x : Word) (r : Nat) : rotl32 x r = x.rotateLeft r := by
  rw [rotl32, BitVec.rotateLeft_def]
  split_ifs with hr
  · simp [hr, BitVec.ushiftRight_eq_zero]
  · rfl

theorem rotr32_eq_rotateRight (x : Word) (r : Nat) : rotr32 x r = x.rotateRight r := by
  rw [rotr32, BitVec.rotateRight_def]
  split_ifs with hr
  · simp [hr]
  · rfl

theorem rotl32_getLsbD (x : Word) (r : Nat) {i : Nat} (hi : i < 32) :
    (rotl32 x r).getLsbD ((i + r) % 32) = x.getLsbD i := by
  rw [rotl32_eq_rotateLeft, BitVec.getLsbD_rotateLeft, Bool.cond_decide]
  split_ifs with hlt
  · exact congrArg x.getLsbD (by omega)
  · have hbit : (i + r) % 32 < 32 := Nat.mod_lt _ (by decide)
    rw [decide_eq_true hbit, Bool.true_and]
    exact congrArg x.getLsbD (by omega)

theorem rotr32_getLsbD (x : Word) (r : Nat) {i : Nat} (hi : i < 32) :
    (rotr32 x r).getLsbD i = x.getLsbD ((i + r) % 32) := by
  rw [rotr32_eq_rotateRight, BitVec.getLsbD_rotateRight, Bool.cond_decide]
  split_ifs with hlt
  · exact congrArg x.getLsbD (by omega)
  · rw [decide_eq_true hi, Bool.true_and]
    exact congrArg x.getLsbD (by omega)

@[simp] theorem rotr32_rotl32 (x : Word) (r : Nat) : rotr32 (rotl32 x r) r = x := by
  refine BitVec.eq_of_getLsbD_eq fun i hi => ?_
  rw [rotr32_getLsbD _ r hi, rotl32_getLsbD x r hi]

/-- Every place is where the left rotation puts some bit, so that bit is followed through both. -/
@[simp] theorem rotl32_rotr32 (x : Word) (r : Nat) : rotl32 (rotr32 x r) r = x := by
  refine BitVec.eq_of_getLsbD_eq fun i hi => ?_
  obtain ⟨k, hk, rfl⟩ : ∃ k < 32, i = (k + r) % 32 :=
    ⟨(i + (32 - r % 32)) % 32, by omega, by omega⟩
  rw [rotl32_getLsbD _ r hk, rotr32_getLsbD x r hk]

theorem rotl32_mod (x : Word) (r : Nat) : rotl32 x (r % 32) = rotl32 x r := by
  rw [rotl32, rotl32, Nat.mod_mod]

/-- Bit `i` of either is bit `(i + (32 - r)) % 32` of the word. -/
theorem rotl32_eq_rotr32 (x : Word) {r : Nat} (hr : r ≤ 32) : rotl32 x r = rotr32 x (32 - r) := by
  refine BitVec.eq_of_getLsbD_eq fun i hi => ?_
  have hback : ((i + (32 - r)) % 32 + r) % 32 = i := by omega
  have hleft := rotl32_getLsbD x r (Nat.mod_lt (i + (32 - r)) (by decide : 32 > 0))
  rw [hback] at hleft
  rw [hleft, rotr32_getLsbD x (32 - r) hi]

/-- Settles O35: the rotations move bits around a circle of 32. -/
theorem rotationLaws : Obligations.RotationLaws :=
  fun x r => ⟨rotr32_rotl32 x r, rotl32_mod x r, rotl32_eq_rotr32 x, fun _ => rotl32_getLsbD x r⟩

end Sys2Proof.Proofs
end

