-- ==== Sys2Proof/Proofs/Rounds.lean ====
section
/-! PROOF. The permutation (41_permutation.md R126 to R135): the rounds undo each other, and so do
their sequences and, with the whitening, the two directions of PERMUTE. -/

namespace Sys2Proof.Proofs

open Sys2Proof.Machine Sys2Proof.Laws

/-! ## One round -/

@[simp] theorem roundInv_roundFwd (q : Quad) : roundInv (roundFwd q) = q := by
  simp only [roundFwd, roundInv, sub32_add32, rotr32_rotl32, xor_cancel_right]

@[simp] theorem roundFwd_roundInv (q : Quad) : roundFwd (roundInv q) = q := by
  simp only [roundInv, roundFwd, add32_sub32, rotl32_rotr32, xor_cancel_right]

/-- Settles O36: the steps I1 to I14 undo F1 to F14, the last one first. -/
theorem roundsAreInverse : Obligations.RoundsAreInverse :=
  fun q => ⟨roundInv_roundFwd q, roundFwd_roundInv q⟩

/-- Settles O37: the three rounds are computed. -/
theorem zeroIsFixedPoint : Obligations.ZeroIsFixedPoint := by
  unfold Obligations.ZeroIsFixedPoint
  decide

theorem roundDir_zeroQuad (dir : Direction) : roundDir dir zeroQuad = zeroQuad := by
  cases dir <;> decide

/-- The direction that undoes a direction (41_permutation.md R128, R133). -/
def opposite : Direction → Direction
  | .forward => .inverse
  | .inverse => .forward

theorem roundDir_opposite (dir : Direction) :
    Function.LeftInverse (roundDir (opposite dir)) (roundDir dir) := by
  cases dir with
  | forward => exact roundInv_roundFwd
  | inverse => exact roundFwd_roundInv

/-! ## Any number of rounds -/

theorem roundsDir_eq_iterate (dir : Direction) (n : Nat) : roundsDir dir n = (roundDir dir)^[n] := by
  funext q
  induction n with
  | zero => rfl
  | succ n ih => rw [Function.iterate_succ_apply', ← ih, roundsDir]

@[simp] theorem roundsDir_opposite (dir : Direction) (n : Nat) (q : Quad) :
    roundsDir (opposite dir) n (roundsDir dir n q) = q := by
  rw [roundsDir_eq_iterate, roundsDir_eq_iterate]
  exact (roundDir_opposite dir).iterate n q

@[simp] theorem roundsDir_zeroQuad (dir : Direction) (n : Nat) :
    roundsDir dir n zeroQuad = zeroQuad := by
  rw [roundsDir_eq_iterate]
  exact Function.iterate_fixed (roundDir_zeroQuad dir) n

/-! ## PERMUTE -/

@[simp] theorem xorQuad_self (q : Quad) : xorQuad q q = zeroQuad := by
  simp [xorQuad, zeroQuad]

@[simp] theorem zeroQuad_xorQuad (q : Quad) : xorQuad zeroQuad q = q := by
  simp [xorQuad, zeroQuad]

/-- The inner whitenings cancel, then the rounds, then the outer whitenings. -/
@[simp] theorem permuteWords_opposite (dir : Direction) (key block : Quad) :
    permuteWords (opposite dir) key (permuteWords dir key block) = block := by
  rw [permuteWords, permuteWords, xorQuad_cancel, roundsDir_opposite, xorQuad_cancel]

/-- The whitened block is 0, which the rounds leave as it is. -/
@[simp] theorem permuteWords_key (dir : Direction) (key : Quad) : permuteWords dir key key = key := by
  rw [permuteWords, xorQuad_self, roundsDir_zeroQuad, zeroQuad_xorQuad]

theorem permute_opposite (dir : Direction) (k b : Bytes16) :
    permute (opposite dir) k (permute dir k b) = b := by
  rw [permute, permute, wordsOf_bytesOf, permuteWords_opposite, bytesOf_wordsOf]

theorem bytesOf_permuteWords (dir : Direction) (key block : Quad) :
    bytesOf (permuteWords dir key block) = permute dir (bytesOf key) (bytesOf block) := by
  rw [permute, wordsOf_bytesOf, wordsOf_bytesOf]

/-- Settles O38: each direction is the opposite of the other. -/
theorem permuteIsBijection : Obligations.PermuteIsBijection :=
  fun k b => ⟨permute_opposite .forward k b, permute_opposite .inverse k b⟩

/-- Settles O39: the packing carries the fixed point of the words over to bytes. -/
theorem keyAsBlockIsFixed : Obligations.KeyAsBlockIsFixed := by
  intro dir k
  rw [permute, permuteWords_key, bytesOf_wordsOf]

end Sys2Proof.Proofs
end

