-- ==== Sys2Proof/Proofs/CoreSteps.lean ====
section
/-! PROOF. The core's steps (41_permutation.md R136, R137, 42_ctr_engine.md R165): a round, the commit
by the latched opcode, and what a commit under the invariant puts in OUT (R138, R162, R163). -/

namespace Sys2Proof.Proofs

open Sys2Proof.Machine Sys2Proof.Laws

theorem coreTurn_round {s : State} (hb : s.busy = true) (hr : s.rc.val < 16) :
    coreTurn s = roundStep s := by
  rw [coreTurn, if_pos hb, coreStep, Config.rounds, if_pos hr]

theorem coreTurn_commit {s : State} (hb : s.busy = true) (hr : s.rc.val = 16) :
    coreTurn s = commitStep s := by
  rw [coreTurn, if_pos hb, coreStep, Config.rounds, if_neg (Nat.not_lt_of_le hr.ge)]

theorem commitStep_perm {s : State} (ho : s.opl ≠ .ctrXor) : commitStep s = commitPerm s := by
  rw [commitStep]
  cases h : s.opl with
  | permFwd | permInv => rfl
  | ctrXor => exact absurd h ho

theorem commitStep_ctr {s : State} (ho : s.opl = .ctrXor) : commitStep s = commitCtr s := by
  rw [commitStep, ho]

theorem step_commit {s : State} (h : CommitsNext s) : step s = .next (commitStep (popTurn s)) := by
  obtain ⟨ha, hb, hr⟩ := h
  have hpop : (popTurn s).busy = true := hb
  rw [step_of_core ha, coreTurn_commit hpop hr]

theorem roundDir_opDirection (op : Opcode) (q : Quad) :
    roundDir (opDirection op) q = if op = .permInv then roundInv q else roundFwd q := by
  cases op <;> rfl

/-- Settles O28: below 16 rounds the core's turn is the round step. -/
theorem coreRoundStep : Obligations.CoreRoundStep := by
  intro s ha hb hr
  have hpop : (popTurn s).busy = true := hb
  refine ⟨nextRc s.rc, nextRc_val hr, ?_⟩
  rw [step_of_core ha, coreTurn_round hpop hr, ← roundDir_opDirection]
  rfl

/-- Settles O29: after 16 rounds it is the commit, which whitens V into OUT. -/
theorem corePermutationCommit : Obligations.CorePermutationCommit := by
  intro s ha hb hr ho
  refine ⟨commitPerm (popTurn s), ?_, wordAt_xorQuad s.v s.key, rfl, rfl, rfl, rfl, rfl, rfl, rfl, rfl,
    rfl, rfl, rfl⟩
  have hpop : (popTurn s).opl ≠ .ctrXor := ho
  rw [step_commit ⟨ha, hb, hr⟩, commitStep_perm hpop]

/-! ## The commit under the invariant -/

/-- After 16 rounds of a running command, whitening V with the key completes PERMUTE of its input
block (41_permutation.md R132, R138). -/
theorem bytesOf_whitened_of_runningInv {s : State} (h : RunningInv s) (hr : s.rc.val = 16) :
    bytesOf (xorQuad s.v s.key) =
      permute (opDirection s.opl) (bytesOf s.key) (bytesOf (inputBlock s.opl s)) := by
  obtain ⟨-, -, -, -, -, hv⟩ := h
  rw [← bytesOf_permuteWords, permuteWords, hv, hr, Config.rounds]

theorem bytesOf_ctrOutput (s : State) :
    bytesOf (ctrOutput s) =
      ctrXorBytes s.lenl.toNat (bytesOf s.inp) (bytesOf (xorQuad s.v s.key)) :=
  bytesOf_wordsOf _

/-- What a permutation commits; `op` is a name for OPL, so that the cases of a claim can give it. -/
theorem bytesOf_commitStep_perm {s : State} {op : Opcode} (h : RunningInv s) (hr : s.rc.val = 16)
    (ho : s.opl = op) (hop : op ≠ .ctrXor) :
    bytesOf (commitStep s).out = permute (opDirection op) (bytesOf s.key) (bytesOf s.inp) := by
  have hinput : inputBlock op s = s.inp := by
    cases op with
    | permFwd | permInv => rfl
    | ctrXor => exact absurd rfl hop
  subst ho
  rw [commitStep_perm hop, ← hinput]
  exact bytesOf_whitened_of_runningInv h hr

/-- What CTR_XOR commits: the whitened V is the keystream. -/
theorem bytesOf_commitStep_ctr {s : State} (h : RunningInv s) (hr : s.rc.val = 16)
    (ho : s.opl = .ctrXor) :
    bytesOf (commitStep s).out =
      ctrXorBytes s.lenl.toNat (bytesOf s.inp) (keystream (bytesOf s.key) (bytesOf s.ctr)) := by
  have hks := bytesOf_whitened_of_runningInv h hr
  rw [ho] at hks
  calc bytesOf (commitStep s).out
    _ = bytesOf (ctrOutput s) := by rw [commitStep_ctr ho]; rfl
    _ = ctrXorBytes s.lenl.toNat (bytesOf s.inp) (bytesOf (xorQuad s.v s.key)) :=
      bytesOf_ctrOutput s
    _ = ctrXorBytes s.lenl.toNat (bytesOf s.inp) (keystream (bytesOf s.key) (bytesOf s.ctr)) :=
      congrArg _ hks

/-- Settles O41: V is the running command's, and the step's bookkeeping of the turns leaves it. -/
theorem commitIsThePermutation : Obligations.CommitIsThePermutation := by
  intro s hinv hc
  obtain ⟨hrun, -⟩ := hinv
  obtain ⟨-, hb, hr⟩ := id hc
  have hpop : RunningInv (popTurn s) := hrun hb
  refine ⟨_, step_commit hc, fun ho => ?_, fun ho => ?_, fun ho i => ?_⟩
  · exact bytesOf_commitStep_perm (op := .permFwd) hpop hr ho nofun
  · exact bytesOf_commitStep_perm (op := .permInv) hpop hr ho nofun
  · rw [bytesOf_commitStep_ctr hpop hr ho]; rfl

end Sys2Proof.Proofs
end

