-- ==== Sys2Proof/Proofs/CommandRuns.lean ====
section
/-! PROOF. Commands from the word presented to the commit: accepting (40_host_interface.md R99, R103,
R104), and the 17 core steps of a command left to the core (70_reset_and_hazards.md R233). -/

namespace Sys2Proof.Proofs

open Sys2Proof.Machine Sys2Proof.Laws

/-! ## Accepting -/

theorem exec_of_noKey {i : Instr} {c : Command} {s : State} (hp : presented i = some (.ok c))
    (hb : s.busy = false) (hk : s.keyWr ≠ 0b1111#4) :
    exec i s = .next (rejectCommand .missingKey s) := by
  rw [exec_unlessBusy_idle (exec_of_presented hp s) hb, checkCommand_of_noKey c hk]

theorem exec_of_accepted {i : Instr} {c : Command} {s : State} (hp : presented i = some (.ok c))
    (hb : s.busy = false) (hk : s.keyWr = 0b1111#4)
    (hctr : commandOp c = .ctrXor → s.ctrWr = 0b1111#4) :
    exec i s = .next (acceptCommand c s) := by
  rw [exec_unlessBusy_idle (exec_of_presented hp s) hb, checkCommand_of_fullKey c hk,
    if_neg fun hno => hno.2 (hctr hno.1)]

/-- Settles O23: neither permutation needs the counter. -/
theorem permutationCommands : Obligations.PermutationCommands := by
  intro s
  refine ⟨fun hb hk => ⟨?_, ?_⟩, fun hb hk => ⟨?_, ?_⟩, fun hb => ⟨?_, ?_⟩⟩
  · exact exec_of_accepted (c := .permFwd) rfl hb hk nofun
  · exact exec_of_accepted (c := .permInv) rfl hb hk nofun
  · exact exec_of_noKey (c := .permFwd) rfl hb hk
  · exact exec_of_noKey (c := .permInv) rfl hb hk
  · exact exec_unlessBusy_busy rfl hb
  · exact exec_unlessBusy_busy rfl hb

/-! ## The core's turns of one command -/

/-- `s` once `n` rounds of the command it has accepted are done (41_permutation.md R136). -/
def afterRounds (s : State) (n : Fin 17) : State :=
  { s with v := roundsDir (opDirection s.opl) n.val s.v, rc := n }

theorem roundStep_afterRounds (s : State) {n : Nat} (hn : n < 16) :
    roundStep (afterRounds s ⟨n, by omega⟩) = afterRounds s ⟨n + 1, by omega⟩ := by
  have hrc : nextRc ⟨n, by omega⟩ = ⟨n + 1, by omega⟩ := Fin.ext (nextRc_val hn)
  rw [afterRounds, roundStep, hrc]
  rfl

theorem coreTurns_succ (n : Nat) (s : State) : coreTurns (n + 1) s = coreTurn (coreTurns n s) :=
  coreTurns_add n 1 s

/-- The first 16 turns of a command run its rounds. -/
theorem coreTurns_rounds {s : State} (hb : s.busy = true) (hrc : s.rc = 0) {n : Nat} (hn : n < 17) :
    coreTurns n s = afterRounds s ⟨n, hn⟩ := by
  induction n with
  | zero =>
    have hzero : s = { s with rc := 0 } := by rw [← hrc]
    exact hzero
  | succ n ih =>
    have hn' : n < 16 := Nat.lt_of_succ_lt_succ hn
    have hbusy : (afterRounds s ⟨n, Nat.lt_of_succ_lt hn⟩).busy = true := hb
    rw [coreTurns_succ, ih (Nat.lt_of_succ_lt hn), coreTurn_round hbusy hn',
      roundStep_afterRounds s hn']

/-- The 17th turn commits it. -/
theorem coreTurns_command {s : State} (hb : s.busy = true) (hrc : s.rc = 0) :
    coreTurns 17 s = commitStep (afterRounds s (Fin.last 16)) := by
  have hbusy : (afterRounds s (Fin.last 16)).busy = true := hb
  rw [coreTurns_succ, coreTurns_rounds hb hrc (by decide)]
  exact coreTurn_commit hbusy rfl

/-! ## A command left to the core -/

theorem step_of_running {s : State} (ht : s.turns = []) (hb : s.busy = true) :
    step s = .next (coreTurn s) := by
  have ha : nextAgent s = .core := by simp [nextAgent, ht, hb]
  have hpop : popTurn s = s := by rw [popTurn, ht, List.tail_nil, ← ht]
  rw [step_of_core ha, hpop]

theorem coreTurn_turns (s : State) : (coreTurn s).turns = s.turns := by
  rcases coreTurn_cases s with ⟨-, h⟩ | ⟨-, -, h⟩ | ⟨-, -, -, h⟩ | ⟨-, -, -, h⟩ <;> rw [h] <;> rfl

theorem run_of_step {M : Host.Core} {s t : M.State} (h : M.step s = .next t) (n : Nat) :
    M.run (n + 1) s = M.run n t := by
  rw [Host.Core.run, h]

/-- With no turns listed the machine's steps are the core's turns as long as the command runs. -/
theorem run_eq_coreTurns {n : Nat} {s : State} (ht : s.turns = [])
    (hb : ∀ m < n, (coreTurns m s).busy = true) :
    Host.Core.run Sys2Proof.core n s = .next (coreTurns n s) := by
  induction n generalizing s with
  | zero => rfl
  | succ n ih =>
    have hstep : step s = .next (coreTurn s) := step_of_running ht (hb 0 (Nat.succ_pos n))
    refine (run_of_step (M := Sys2Proof.core) hstep n).trans ?_
    exact ih ((coreTurn_turns s).trans ht) fun m hm => hb (m + 1) (Nat.succ_lt_succ hm)

theorem run_command_eq_coreTurns {s : State} (ht : s.turns = []) (hb : s.busy = true)
    (hrc : s.rc = 0) {n : Nat} (hn : n ≤ 17) :
    Host.Core.run Sys2Proof.core n s = .next (coreTurns n s) := by
  refine run_eq_coreTurns ht fun m hm => ?_
  rw [coreTurns_rounds hb hrc (by omega)]
  exact hb

/-- An accepted command left to the core commits after its 17 steps. -/
theorem run_accepted (c : Command) {s : State} (ht : s.turns = []) :
    Host.Core.run Sys2Proof.core 17 (acceptCommand c s) =
      .next (commitStep (afterRounds (acceptCommand c s) (Fin.last 16))) :=
  (run_command_eq_coreTurns (s := acceptCommand c s) ht rfl rfl (Nat.le_refl 17)).trans
    (congrArg _ (coreTurns_command rfl rfl))

theorem run_accepted_perm {c : Command} (hc : commandOp c ≠ .ctrXor) {s : State} (ht : s.turns = []) :
    Host.Core.run Sys2Proof.core 17 (acceptCommand c s) =
      .next (commitPerm (afterRounds (acceptCommand c s) (Fin.last 16))) :=
  (run_accepted c ht).trans (congrArg _ (commitStep_perm hc))

/-- The command that permutes in a direction. -/
def permCommand : Direction → Command
  | .forward => .permFwd
  | .inverse => .permInv

theorem commandOp_permCommand_ne (dir : Direction) : commandOp (permCommand dir) ≠ .ctrXor := by
  cases dir <;> nofun

/-- Settles O40: the whitenings at the accept and at the commit with the 16 rounds in between are
PERMUTE. -/
theorem permutationCommandsEndToEnd : Obligations.PermutationCommandsEndToEnd := by
  intro s dir hb hk ht
  have hop := commandOp_permCommand_ne dir
  refine ⟨_, _, exec_of_accepted (c := permCommand dir) ?_ hb hk fun h => absurd h hop,
    run_accepted_perm hop ht, ?_, rfl, rfl, rfl, rfl, rfl, rfl, rfl, rfl, rfl, rfl⟩
  · cases dir <;> rfl
  · cases dir with
    | forward | inverse => exact bytesOf_permuteWords _ s.key s.inp

end Sys2Proof.Proofs
end

