-- ==== Sys2Proof/Proofs/CounterCommands.lean ====
section
/-! PROOF. The counter mode (42_ctr_engine.md R160 to R167): INC128, the checks of CTR_XOR, its commit,
and the command from the word presented to the commit. -/

namespace Sys2Proof.Proofs

open Sys2Proof.Machine Sys2Proof.Laws

/-! ## INC128 -/

theorem counterValue_inc128_toNat (q : Quad) :
    (counterValue (inc128 q)).toNat = ((counterValue q).toNat + 1) % 2 ^ 128 := by
  rw [counterValue_inc128, BitVec.toNat_add]
  rfl

/-- Settles O44: the words of the incremented counter hold its value plus 1; the four rows are
computed. -/
theorem incrementModulo : Obligations.IncrementModulo :=
  ⟨counterValue_inc128_toNat, by decide, by decide, by decide, by decide⟩

/-! ## The commit -/

theorem bytesOf_ctrOutput_at (s : State) (i : Fin 16) :
    bytesOf (ctrOutput s) i =
      if i.val < s.lenl.toNat then bytesOf s.inp i ^^^ bytesOf (xorQuad s.v s.key) i else 0#8 := by
  rw [bytesOf_ctrOutput, ctrXorBytes]

/-- Settles O30: after 16 rounds the core's turn is the commit, which increments the counter. -/
theorem coreCounterCommit : Obligations.CoreCounterCommit := by
  intro s ha hb hr ho
  have hpop : (popTurn s).opl = .ctrXor := ho
  refine ⟨commitCtr (popTurn s), ?_, bytesOf_ctrOutput_at (popTurn s),
    counterValue_inc128_toNat s.ctr, rfl, rfl, rfl, rfl, rfl, rfl, rfl, rfl, rfl, rfl⟩
  rw [step_commit ⟨ha, hb, hr⟩, commitStep_ctr hpop]

/-! ## The command -/

theorem presented_ctrXor_legal {n : BitVec 5} (h1 : 1 ≤ n.toNat) (h16 : n.toNat ≤ 16) :
    presented (.ctrXor n) = some (.ok (.ctrXor n)) :=
  congrArg some (if_pos ((legalLen_iff n).mpr ⟨h1, h16⟩))

theorem presented_ctrXor_illegal {n : BitVec 5} (h : n.toNat = 0 ∨ 17 ≤ n.toNat) :
    presented (.ctrXor n) = some (.error .invalidLength) := by
  refine congrArg some (if_neg fun hlegal => ?_)
  rw [legalLen_iff] at hlegal
  omega

theorem exec_of_rejected {i : Instr} {code : ErrCode} {s : State}
    (hp : presented i = some (.error code)) (hb : s.busy = false) :
    exec i s = .next (rejectCommand code s) :=
  exec_unlessBusy_idle (exec_of_presented hp s) hb

theorem exec_of_noCounter {i : Instr} {c : Command} {s : State} (hp : presented i = some (.ok c))
    (hc : commandOp c = .ctrXor) (hb : s.busy = false) (hk : s.keyWr = 0b1111#4)
    (hctr : s.ctrWr ≠ 0b1111#4) : exec i s = .next (rejectCommand .missingCounterState s) := by
  rw [exec_unlessBusy_idle (exec_of_presented hp s) hb, checkCommand_of_fullKey c hk,
    if_pos ⟨hc, hctr⟩]

/-- Settles O24: the busy rule, the length, then the two masks. -/
theorem counterModeCommand : Obligations.CounterModeCommand := by
  intro s n
  refine ⟨exec_unlessBusy_busy rfl, fun hb hn => exec_of_rejected (presented_ctrXor_illegal hn) hb,
    fun hb h1 h16 => ?_⟩
  have hp := presented_ctrXor_legal h1 h16
  exact ⟨exec_of_noKey hp hb, exec_of_noCounter hp rfl hb,
    fun hk hctr => exec_of_accepted hp hb hk fun _ => hctr⟩

/-! ## The command from accept to commit -/

/-- `s` once a `CTR_XOR n` accepted in it has committed (42_ctr_engine.md R165). -/
def afterCtrXor (n : BitVec 5) (s : State) : State :=
  commitCtr (afterRounds (acceptCommand (.ctrXor n) s) (Fin.last 16))

theorem coreTurns_accepted_ctr (n : BitVec 5) (s : State) :
    coreTurns 17 (acceptCommand (.ctrXor n) s) = afterCtrXor n s :=
  (coreTurns_command rfl rfl).trans (commitStep_ctr rfl)

/-- The whitening at the accept, the 16 rounds and the whitening at the commit are the keystream's
PERMUTE (42_ctr_engine.md R162). -/
theorem bytesOf_afterCtrXor_out (n : BitVec 5) (s : State) :
    bytesOf (afterCtrXor n s).out =
      ctrXorBytes n.toNat (bytesOf s.inp) (keystream (bytesOf s.key) (bytesOf s.ctr)) :=
  (bytesOf_ctrOutput (afterRounds (acceptCommand (.ctrXor n) s) (Fin.last 16))).trans
    (congrArg (ctrXorBytes n.toNat (bytesOf s.inp)) (bytesOf_permuteWords .forward s.key s.ctr))

/-- Settles O45: the 17 steps left to the core are those of the command. -/
theorem counterModeEndToEnd : Obligations.CounterModeEndToEnd := by
  intro s n hb hk hctr h1 h16 ht
  have hrun : Host.Core.run Sys2Proof.core 17 (acceptCommand (.ctrXor n) s) =
      .next (afterCtrXor n s) :=
    (run_accepted (.ctrXor n) ht).trans (congrArg _ (commitStep_ctr rfl))
  exact ⟨_, afterCtrXor n s, exec_of_accepted (presented_ctrXor_legal h1 h16) hb hk fun _ => hctr,
    rfl, hrun, congrFun (bytesOf_afterCtrXor_out n s), counterValue_inc128 s.ctr, rfl, rfl, rfl,
    rfl, rfl, rfl, rfl, rfl, rfl⟩

end Sys2Proof.Proofs
end

