-- ==== Sys2Proof/Proofs/StreamBlocks.lean ====
section
/-! PROOF. One turn of CTR_STREAM's loop (42_ctr_engine.md R168) on a block that is idle with key and
counter full: it succeeds, answers data XOR keystream, and leaves the block so again. -/

namespace Sys2Proof.Proofs

open Sys2Proof.Machine Sys2Proof.Laws

/-- The block can accept a CTR_XOR: idle, with the key and the counter full (R163). -/
structure StreamReady (s : State) : Prop where
  idle : s.busy = false
  keyFull : s.keyWr = 0b1111#4
  ctrFull : s.ctrWr = 0b1111#4

/-! ## The host's operations of one turn -/

theorem runHost_append {ops : List HostOp} {s t : State} (h : runHost ops s = .next t)
    (rest : List HostOp) : runHost (ops ++ rest) s = runHost rest t := by
  induction ops generalizing s with
  | nil => cases h; rfl
  | cons op ops ih =>
    simp only [runHost, List.cons_append] at h ⊢
    split at h
    · exact ih h
    · cases h
    · cases h

/-- `ctr.xor n` (30_encoding.md R81) writes the command word of CTR_XOR n. -/
theorem decodeCommand_hostCtrXor {n : Nat} (h1 : 1 ≤ n) (h16 : n ≤ 16) :
    decodeCommand (BitVec.ofNat 32 (3 + n <<< 4)) = .ok (.ctrXor (BitVec.ofNat 5 n)) := by
  rw [decodeCommand_eq_iff, reading_ctrXor_iff]
  simp only [BitVec.toNat_ofNat, Nat.shiftLeft_eq]
  omega

theorem runHost_hostCtrXor {n : Nat} (h1 : 1 ≤ n) (h16 : n ≤ 16) {s : State} (h : StreamReady s) :
    runHost (hostCtrXor n) s = .next (acceptCommand (.ctrXor (BitVec.ofNat 5 n)) s) := by
  have hpresented := congrArg some (decodeCommand_hostCtrXor h1 h16)
  refine runHost_request ((takeRequest_of_decode (isRow_cmd.decode_rawReq 0 (some _)) s).trans ?_)
  exact exec_of_accepted (i := .wrCmd _) hpresented h.idle h.keyFull fun _ => h.ctrFull

/-- The core's 17 steps end the command, and the poll then changes nothing but the values read. -/
theorem runHost_wait_accepted (n : BitVec 5) (s : State) :
    runHost [.wait] (acceptCommand (.ctrXor n) s) =
      .next (readReturns (statusWord (afterCtrXor n s)) (afterCtrXor n s)) := by
  have hwait : waitDone (acceptCommand (.ctrXor n) s) = pollStatus (afterCtrXor n s) :=
    congrArg pollStatus (coreTurns_accepted_ctr n s)
  have hidle : ¬ (afterCtrXor n s).busy = true := Bool.false_ne_true
  simp only [runHost, hwait, pollStatus_eq, if_neg hidle]

/-- `s` after `rdout` (30_encoding.md R81). -/
def afterRdout (s : State) : State :=
  { s with reads := s.out.w3 :: s.out.w2 :: s.out.w1 :: s.out.w0 :: s.reads }

theorem runHost_hostRdout (s : State) : runHost hostRdout s = .next (afterRdout s) := by
  have hread (j : Fin 4) (ops : List HostOp) (u : State) :
      runHost (hostRd (.out j) :: ops) u = runHost ops (readReturns (wordAt u.out j) u) :=
    runHost_request (takeRequest_of_decode (isRow_out.decode_rawReq j none) u)
  rw [hostRdout, hread, hread, hread, hread]
  rfl

@[simp] theorem lastRead_afterRdout (s : State) : lastRead (afterRdout s) = bytesOf s.out := rfl

/-! ## The output bytes -/

/-- Byte `p` of the stream's keystream (42_ctr_engine.md R169): of the block of counter `c + p / 16`,
byte `p % 16`. -/
def streamByte (key : Bytes16) (c : BitVec 128) (p : Nat) : Byte :=
  keystream key (be128inv (c + BitVec.ofNat 128 (p / 16))) ⟨p % 16, Nat.mod_lt p (by decide)⟩

/-- Data XOR the keystream that starts at counter `c`. -/
def xorStream (key : Bytes16) (c : BitVec 128) (data : List Byte) : List Byte :=
  data.mapIdx fun p b => b ^^^ streamByte key c p

theorem streamByte_at (key : Bytes16) (c : BitVec 128) (m : Nat) (i : Fin 16) :
    streamByte key c (16 * m + i.val) = keystream key (be128inv (c + BitVec.ofNat 128 m)) i := by
  have hm : (16 * m + i.val) / 16 = m := by omega
  have hi : (16 * m + i.val) % 16 = i.val := by omega
  simp only [streamByte, hm, hi]

/-- In the first block the keystream is that of the counter itself. -/
theorem streamByte_first (key : Bytes16) (c : BitVec 128) (i : Fin 16) :
    streamByte key c i.val = keystream key (be128inv c) i := by
  simpa using streamByte_at key c 0 i

/-- What CTR_XOR puts in OUT for a chunk of data is the chunk XOR the first block of keystream. -/
theorem takeBytes_ctrXorBytes (key : Bytes16) (c : BitVec 128) {chunk : List Byte}
    (h16 : chunk.length ≤ 16) :
    takeBytes chunk.length
        (ctrXorBytes chunk.length (padBytes chunk) (keystream key (be128inv c))) =
      xorStream key c chunk := by
  refine List.ext_getElem (by simp only [takeBytes, xorStream, List.length_take, List.length_ofFn,
    List.length_mapIdx, min_eq_left h16]) fun p _ hp => ?_
  have hlt : p < chunk.length := by simpa only [xorStream, List.length_mapIdx] using hp
  have hbyte := streamByte_first key c ⟨p, hlt.trans_le h16⟩
  simp only [takeBytes, xorStream, List.getElem_take, List.getElem_ofFn, List.getElem_mapIdx,
    ctrXorBytes, padBytes, if_pos hlt, List.getD_eq_getElem _ _ hlt, ← hbyte]

/-! ## One turn -/

/-- The command on a block of data, from `ldin` to `wait`. -/
theorem runHost_streamCommand {chunk : List Byte} (h1 : 1 ≤ chunk.length)
    (h16 : chunk.length ≤ 16) {s : State} (h : StreamReady s) :
    ∃ t, runHost (hostLdin chunk ++ hostCtrXor chunk.length ++ [.wait]) s = .next t ∧
      StreamReady t ∧ t.err = .none ∧ t.key = s.key ∧ t.ctr = inc128 s.ctr ∧
      bytesOf t.out = ctrXorBytes chunk.length (padBytes chunk)
        (keystream (bytesOf s.key) (bytesOf s.ctr)) := by
  have hn : (BitVec.ofNat 5 chunk.length).toNat = chunk.length := by
    rw [BitVec.toNat_ofNat]
    omega
  have hloaded : StreamReady { s with inp := wordsOf (padBytes chunk) } :=
    ⟨h.idle, h.keyFull, h.ctrFull⟩
  have hout := bytesOf_afterCtrXor_out (BitVec.ofNat 5 chunk.length)
    { s with inp := wordsOf (padBytes chunk) }
  rw [hn, bytesOf_wordsOf] at hout
  rw [List.append_assoc, runHost_append (runHost_ldin chunk h.idle),
    runHost_append (runHost_hostCtrXor h1 h16 hloaded)]
  exact ⟨_, runHost_wait_accepted _ _, ⟨rfl, h.keyFull, h.ctrFull⟩, rfl, rfl, rfl, hout⟩

/-- One turn of the loop: load, command, wait, and read out. -/
theorem streamBlock_of_ready {chunk : List Byte} (h1 : 1 ≤ chunk.length) (h16 : chunk.length ≤ 16)
    {s : State} (h : StreamReady s) :
    ∃ t, streamBlock chunk s = some (xorStream (bytesOf s.key) (counterValue s.ctr) chunk, t) ∧
      StreamReady t ∧ t.key = s.key ∧ t.ctr = inc128 s.ctr := by
  obtain ⟨t, hrun, hready, herr, hkey, hctr, hout⟩ := runHost_streamCommand h1 h16 h
  refine ⟨afterRdout t, ?_, ⟨hready.idle, hready.keyFull, hready.ctrFull⟩, hkey, hctr⟩
  rw [← be128inv_be128 (bytesOf s.ctr)] at hout
  simp only [streamBlock, hrun, herr, if_true, runHost_hostRdout, lastRead_afterRdout, hout,
    takeBytes_ctrXorBytes _ _ h16, counterValue]

end Sys2Proof.Proofs
end

