-- ==== Sys2Proof/Proofs/Stream.lean ====
section
/-! PROOF. CTR_STREAM (42_ctr_engine.md R168 to R170): the blocks the data is cut into, the stream
over them, and its involution. -/

namespace Sys2Proof.Proofs

open Sys2Proof.Machine Sys2Proof.Laws

/-! ## The blocks -/

/-- The blocks are the data in order, each of 16 bytes but a last shorter one (R168). -/
inductive BlocksOf : List Byte → List (List Byte) → Prop where
  | nil : BlocksOf [] []
  | last {c : List Byte} (hpos : 1 ≤ c.length) (hlt : c.length < 16) : BlocksOf c [c]
  | full {c rest : List Byte} {cs : List (List Byte)} (hc : c.length = 16) (h : BlocksOf rest cs) :
      BlocksOf (c ++ rest) (c :: cs)

theorem cutBlocks_nil (fuel : Nat) : cutBlocks fuel [] = [] := by
  cases fuel <;> rfl

theorem blocksOf_cutBlocks {fuel : Nat} {data : List Byte} (hfuel : data.length ≤ fuel) :
    BlocksOf data (cutBlocks fuel data) := by
  induction fuel generalizing data with
  | zero =>
    obtain rfl := List.length_eq_zero_iff.mp (Nat.le_zero.mp hfuel)
    exact .nil
  | succ fuel ih =>
    cases data with
    | nil => exact .nil
    | cons b bs =>
      rw [cutBlocks, Config.blockBytes]
      by_cases hlt : (b :: bs).length < 16
      · rw [List.take_of_length_le hlt.le, List.drop_of_length_le hlt.le, cutBlocks_nil]
        exact .last (Nat.succ_pos bs.length) hlt
      · have hrest : ((b :: bs).drop 16).length ≤ fuel := by
          rw [List.length_drop]
          omega
        have hfull : ((b :: bs).take 16).length = 16 := List.length_take_of_le (Nat.le_of_not_lt hlt)
        have hcut := BlocksOf.full hfull (ih hrest)
        rwa [List.take_append_drop] at hcut

theorem BlocksOf.map_length {data : List Byte} {cs : List (List Byte)} (h : BlocksOf data cs) :
    cs.map List.length = List.replicate (data.length / 16) 16 ++
      (if data.length % 16 = 0 then [] else [data.length % 16]) := by
  induction h with
  | nil => rfl
  | @last c hpos hlt =>
    have hmod : c.length % 16 = c.length := Nat.mod_eq_of_lt hlt
    have hne : c.length ≠ 0 := Nat.ne_of_gt hpos
    simp [Nat.div_eq_of_lt hlt, hmod, hne]
  | @full c rest cs hc _ ih =>
    have hdiv : (c ++ rest).length / 16 = rest.length / 16 + 1 := by
      rw [List.length_append]
      omega
    have hmod : (c ++ rest).length % 16 = rest.length % 16 := by
      rw [List.length_append]
      omega
    rw [List.map_cons, ih, hc, hdiv, hmod, List.replicate_succ, List.cons_append]

theorem BlocksOf.length {data : List Byte} {cs : List (List Byte)} (h : BlocksOf data cs) :
    cs.length = (data.length + 15) / 16 := by
  induction h with
  | nil => rfl
  | last hpos hlt => rw [List.length_singleton]; omega
  | full hc _ ih => rw [List.length_cons, List.length_append, ih]; omega

/-! ## The stream over the blocks -/

/-- The keystream past the first block is that of the next counter. -/
theorem streamByte_add_block (key : Bytes16) (c : BitVec 128) (p : Nat) :
    streamByte key c (p + 16) = streamByte key (c + 1#128) p := by
  have hdiv : (p + 16) / 16 = p / 16 + 1 := Nat.add_div_right p (by decide)
  have hmod : (p + 16) % 16 = p % 16 := Nat.add_mod_right p 16
  have hsum : c + BitVec.ofNat 128 (p / 16 + 1) = c + 1#128 + BitVec.ofNat 128 (p / 16) := by
    rw [BitVec.ofNat_add, BitVec.add_assoc, BitVec.add_comm (1#128)]
  simp only [streamByte, hdiv, hmod, hsum]

theorem xorStream_append (key : Bytes16) (c : BitVec 128) {chunk : List Byte}
    (hchunk : chunk.length = 16) (rest : List Byte) :
    xorStream key c (chunk ++ rest) = xorStream key c chunk ++ xorStream key (c + 1#128) rest := by
  simp only [xorStream, List.mapIdx_append, hchunk, streamByte_add_block]

theorem streamBlocks_cons {c : List Byte} {cs : List (List Byte)} {s t u : State}
    {out outs : List Byte} (hblock : streamBlock c s = some (out, t))
    (hblocks : streamBlocks cs t = some (outs, u)) :
    streamBlocks (c :: cs) s = some (out ++ outs, u) := by
  simp only [streamBlocks, hblock, hblocks]

theorem streamBlocks_of_ready {data : List Byte} {cs : List (List Byte)} (h : BlocksOf data cs)
    {s : State} (hs : StreamReady s) :
    ∃ t, streamBlocks cs s = some (xorStream (bytesOf s.key) (counterValue s.ctr) data, t) ∧
      StreamReady t ∧ t.key = s.key ∧
      counterValue t.ctr = counterValue s.ctr + BitVec.ofNat 128 cs.length := by
  induction h generalizing s with
  | nil => exact ⟨s, rfl, hs, rfl, (BitVec.add_zero _).symm⟩
  | @last c hpos hlt =>
    obtain ⟨t, hblock, hready, hkey, hctr⟩ := streamBlock_of_ready hpos hlt.le hs
    refine ⟨t, ?_, hready, hkey, ?_⟩
    · rw [streamBlocks_cons hblock rfl, List.append_nil]
    · rw [hctr, counterValue_inc128, List.length_singleton]
  | @full c rest cs hc _ ih =>
    obtain ⟨t, hblock, hready, hkey, hctr⟩ := streamBlock_of_ready (by omega) hc.le hs
    obtain ⟨u, hblocks, hready', hkey', hctr'⟩ := ih hready
    refine ⟨u, ?_, hready', hkey'.trans hkey, ?_⟩
    · rw [streamBlocks_cons hblock hblocks, xorStream_append _ _ hc, hkey, hctr,
        counterValue_inc128]
    · rw [hctr', hctr, counterValue_inc128, List.length_cons, BitVec.ofNat_add, BitVec.add_assoc,
        BitVec.add_comm (1#128)]

theorem ctrStream_of_ready (data : List Byte) {s : State} (hs : StreamReady s) :
    ∃ t, ctrStream data s = some (xorStream (bytesOf s.key) (counterValue s.ctr) data, t) ∧
      StreamReady t ∧ t.key = s.key ∧
      counterValue t.ctr = counterValue s.ctr + BitVec.ofNat 128 ((data.length + 15) / 16) := by
  have hcut := blocksOf_cutBlocks (Nat.le_refl data.length)
  rw [← hcut.length]
  exact streamBlocks_of_ready hcut hs

/-! ## The output -/

@[simp] theorem length_xorStream (key : Bytes16) (c : BitVec 128) (data : List Byte) :
    (xorStream key c data).length = data.length :=
  List.length_mapIdx

theorem getD_xorStream (key : Bytes16) (c : BitVec 128) {data : List Byte} {p : Nat}
    (hp : p < data.length) :
    (xorStream key c data).getD p 0#8 = data.getD p 0#8 ^^^ streamByte key c p := by
  have hout : p < (xorStream key c data).length := by rwa [length_xorStream]
  rw [List.getD_eq_getElem _ _ hp, List.getD_eq_getElem _ _ hout]
  exact List.getElem_mapIdx

@[simp] theorem xorStream_xorStream (key : Bytes16) (c : BitVec 128) (data : List Byte) :
    xorStream key c (xorStream key c data) = data := by
  refine List.ext_getElem (by simp only [length_xorStream]) fun p _ _ => ?_
  simp only [xorStream, List.getElem_mapIdx, xor_cancel_right]

/-- Settles O47: the blocks are those of the cut, and each advances the counter by 1. -/
theorem streamOutputAndCounter : Obligations.StreamOutputAndCounter := by
  intro data s hb hk hctr
  have hcut := blocksOf_cutBlocks (Nat.le_refl data.length)
  obtain ⟨t, hstream, hready, hkey, hcount⟩ := ctrStream_of_ready data ⟨hb, hk, hctr⟩
  refine ⟨hcut.length, hcut.map_length, _, t, hstream, length_xorStream _ _ data, ?_,
    fun m i hp => ?_, hkey, hready.idle, hready.keyFull, hready.ctrFull⟩
  · rw [hcount, BitVec.toNat_add, BitVec.toNat_ofNat, Nat.add_mod_mod]
  · rw [getD_xorStream _ _ hp, streamByte_at]

/-- Settles O48: both streams XOR the same keystream, that of the first counter. -/
theorem streamInvolution : Obligations.StreamInvolution := by
  intro data s hb hk hctr
  obtain ⟨t, hstream, hready, hkey, -⟩ := ctrStream_of_ready data ⟨hb, hk, hctr⟩
  have hload := runHost_ldctr (counterValue s.ctr) hready.idle
  have hloaded : StreamReady { t with
      ctr := counterWords (counterValue s.ctr), ctrWr := 0b1111#4 } :=
    ⟨hready.idle, hready.keyFull, rfl⟩
  obtain ⟨v, hagain, -⟩ := ctrStream_of_ready
    (xorStream (bytesOf s.key) (counterValue s.ctr) data) hloaded
  refine ⟨_, t, _, v, hstream, hload, ?_⟩
  rw [hagain, counterValue_counterWords, hkey, xorStream_xorStream]

end Sys2Proof.Proofs
end

