-- ==== Sys2Proof/Proofs/IllegalCommands.lean ====
section
/-! PROOF. The words of CMD.ILLEGAL (60_exceptions.md R192): the busy rule, then the reject. -/

namespace Sys2Proof.Proofs

open Sys2Proof.Machine Sys2Proof.Laws

/-- Settles O25: the row presents the error of its decode to CMD, so the reject is its own effect
whatever word it carries; that only these words reject so is O8. -/
theorem illegalCommandRejects : Obligations.IllegalCommandRejects := by
  intro s w _
  have hp : presented (.cmdIllegal w) = some (.error .illegalCommand) := rfl
  exact ⟨exec_of_rejected hp, exec_unlessBusy_busy (exec_of_presented hp s)⟩

end Sys2Proof.Proofs
end

