-- ==== Sys2Proof/Proofs/HiddenRegisters.lean ====
section
/-! PROOF. What the hidden registers of an idle block can do (10_state.md R34 to R36,
70_reset_and_hazards.md R221): nothing. A state and the same state with other hidden registers are
followed through each agent's turn: an accepted command overwrites the registers, and while it runs
they are equal. -/

namespace Sys2Proof.Proofs

open Sys2Proof.Machine Sys2Proof.Laws

/-- What V, RC, OPL and LENL hold. -/
structure HiddenRegs where
  v : Quad
  rc : Fin 17
  opl : Opcode
  lenl : BitVec 5

def hiddenRegs (s : State) : HiddenRegs := ⟨s.v, s.rc, s.opl, s.lenl⟩

/-- `s` with other hidden registers and another count of free values. -/
def withHidden (h : HiddenRegs) (free : Nat) (s : State) : State :=
  { s with v := h.v, rc := h.rc, opl := h.opl, lenl := h.lenl, freeCount := free }

/-- The hidden registers may differ from those of `s` only while it is idle. -/
abbrev HiddenFits (h : HiddenRegs) (s : State) : Prop := s.busy = true → h = hiddenRegs s

theorem sameToHost_withHidden {h : HiddenRegs} {s : State} (hfits : HiddenFits h s) (free : Nat) :
    SameToHost s (withHidden h free s) :=
  ⟨rfl, rfl, rfl, rfl, rfl, rfl, rfl, rfl, rfl, rfl, rfl, rfl,
    fun hb => by rw [hfits hb]; exact ⟨rfl, rfl, rfl, rfl⟩⟩

theorem hiddenFits_of_sameToHost {s t : State} (hst : SameToHost s t) :
    HiddenFits (hiddenRegs t) s := by
  obtain ⟨-, -, -, -, -, -, -, -, -, -, -, -, hhidden⟩ := hst
  intro hb
  obtain ⟨hv, hrc, hopl, hlenl⟩ := hhidden hb
  simp only [hiddenRegs, hv, hrc, hopl, hlenl]

theorem eq_withHidden_of_sameToHost {s t : State} (hst : SameToHost s t) :
    t = withHidden (hiddenRegs t) t.freeCount s := by
  obtain ⟨hkey, hctr, hinp, hout, hbusy, hdone, herr, hkeyWr, hctrWr, hpending, hturns, hreads, -⟩ :=
    hst
  simp only [withHidden, hiddenRegs, hkey, hctr, hinp, hout, hbusy, hdone, herr, hkeyWr, hctrWr,
    hpending, hturns, hreads]

/-! ## The host's turn

An operation that neither reads nor writes the hidden registers commutes with `withHidden` by
unfolding, so `sameToHost_withHidden` of its result closes its case. -/

/-- An operation whose result is the same to the host whatever the hidden registers hold. -/
abbrev IgnoresHidden (f : State → State) : Prop :=
  ∀ {h s} (_ : HiddenFits h s) (free : Nat), SameToHost (f s) (f (withHidden h free s))

theorem ignoresHidden_storeKey (j : Fin 4) (d : Word) : IgnoresHidden (storeKey j d) :=
  fun {_ s} hfits free => sameToHost_withHidden (s := storeKey j d s) hfits free

theorem ignoresHidden_storeCtr (j : Fin 4) (d : Word) : IgnoresHidden (storeCtr j d) :=
  fun {_ s} hfits free => sameToHost_withHidden (s := storeCtr j d s) hfits free

theorem ignoresHidden_storeIn (j : Fin 4) (d : Word) : IgnoresHidden (storeIn j d) :=
  fun {_ s} hfits free => sameToHost_withHidden (s := storeIn j d s) hfits free

/-- Accepting a command sets all of the hidden registers (40_host_interface.md R104). -/
theorem ignoresHidden_acceptCommand (c : Command) : IgnoresHidden (acceptCommand c) :=
  fun {_ s} _ free =>
    sameToHost_withHidden (h := hiddenRegs (acceptCommand c s)) (fun _ => rfl) free

theorem ignoresHidden_unlessBusy {f : State → State} (hf : IgnoresHidden f) :
    IgnoresHidden (unlessBusy f) := by
  intro h s hfits free
  cases hb : s.busy with
  | true =>
    rw [unlessBusy_busy f hb, unlessBusy_busy (s := withHidden h free s) f hb]
    exact sameToHost_withHidden (s := dropWrite s) hfits free
  | false =>
    rw [unlessBusy_idle f hb, unlessBusy_idle (s := withHidden h free s) f hb]
    exact hf hfits free

theorem ignoresHidden_checkCommand (c : Except ErrCode Command) : IgnoresHidden (checkCommand c) := by
  intro h s hfits free
  have hreject (code : ErrCode) := sameToHost_withHidden (s := rejectCommand code s) hfits free
  cases c with
  | error code => exact hreject code
  | ok c =>
    have hk : keyValid (withHidden h free s) = keyValid s := rfl
    have hc : ctrValid (withHidden h free s) = ctrValid s := rfl
    simp only [checkCommand, hk, hc]
    split_ifs
    · exact hreject .missingKey
    · exact hreject .missingCounterState
    · exact ignoresHidden_acceptCommand c hfits free

/-- No read returns a hidden register, and no write but an accepted command sets one. -/
theorem exec_withHidden (i : Instr) {h : HiddenRegs} {s : State} (hfits : HiddenFits h s)
    (free : Nat) : Answer.Related SameToHost (exec i s) (exec i (withHidden h free s)) := by
  have hread (d : Word) := sameToHost_withHidden (s := readReturns d s) hfits free
  have hpresent (c : Except ErrCode Command) :=
    ignoresHidden_unlessBusy (ignoresHidden_checkCommand c) hfits free
  cases i with
  | permFwd | permInv | ctrXor | cmdIllegal | wrCmd => exact hpresent _
  | rdCmd | rdStatus | rdKey | rdCtr | rdIn | rdOut | rdReserved08 | rdReserved50 | rdReserved60
    | rdReserved80 => exact hread _
  | wrStatus | wrOut | wrReserved08 | wrReserved50 | wrReserved60 | wrReserved80 =>
    exact sameToHost_withHidden hfits free
  | wrKey j d => exact ignoresHidden_unlessBusy (ignoresHidden_storeKey j d) hfits free
  | wrCtr j d => exact ignoresHidden_unlessBusy (ignoresHidden_storeCtr j d) hfits free
  | wrIn j d => exact ignoresHidden_unlessBusy (ignoresHidden_storeIn j d) hfits free
  | refusedUnaligned1 | refusedUnaligned2 | refusedUnaligned3 => rfl

theorem takeRequest_withHidden (r : Request) {h : HiddenRegs} {s : State} (hfits : HiddenFits h s)
    (free : Nat) :
    Answer.Related SameToHost (takeRequest r s) (takeRequest r (withHidden h free s)) := by
  unfold takeRequest
  cases decode r with
  | ok i => exact exec_withHidden i hfits free
  | error e => rfl

/-- STATUS shows no hidden register, and BUSY, which decides whether `wait` ends, is none. -/
theorem pollStatus_withHidden {h : HiddenRegs} {s : State} (hfits : HiddenFits h s) (free : Nat) :
    Answer.Related SameToHost (pollStatus s) (pollStatus (withHidden h free s)) := by
  have hbusy : (withHidden h free s).busy = s.busy := rfl
  rw [pollStatus_eq, pollStatus_eq, hbusy]
  split_ifs
  · exact sameToHost_withHidden
      (s := readReturns (statusWord s) (setPending (.wait :: s.pending) s)) hfits free
  · exact sameToHost_withHidden (s := readReturns (statusWord s) s) hfits free

theorem hostOperation_withHidden (op : HostOp) {h : HiddenRegs} {s : State}
    (hfits : HiddenFits h s) (free : Nat) :
    Answer.Related SameToHost (hostOperation op s) (hostOperation op (withHidden h free s)) := by
  cases op with
  | request r => exact takeRequest_withHidden r hfits free
  | reset =>
    exact sameToHost_withHidden (h := hiddenRegs (resetBlock s)) (s := resetBlock s)
      (fun _ => rfl) free
  | wait => exact pollStatus_withHidden hfits free

theorem hostTurn_withHidden {h : HiddenRegs} {s : State} (hfits : HiddenFits h s) (free : Nat) :
    Answer.Related SameToHost (hostTurn s) (hostTurn (withHidden h free s)) := by
  cases hp : s.pending with
  | nil =>
    have hidle {u : State} (hu : u.pending = []) : hostTurn u = .next u := by rw [hostTurn, hu]
    rw [hidle hp, hidle (u := withHidden h free s) hp]
    exact sameToHost_withHidden hfits free
  | cons op rest =>
    rw [hostTurn_of_pending hp, hostTurn_of_pending (s := withHidden h free s) hp]
    exact hostOperation_withHidden op (s := setPending rest s) hfits free

/-! ## The core's turn -/

/-- A commit ends the command, so that the free values it leaves need not be the same. -/
theorem commitStep_withHidden (s : State) (free : Nat) :
    SameToHost (commitStep s) (commitStep (withHidden (hiddenRegs s) free s)) := by
  have hopl : (withHidden (hiddenRegs s) free s).opl = s.opl := rfl
  rw [commitStep, commitStep, hopl]
  cases s.opl with
  | permFwd | permInv | ctrXor =>
    exact ⟨rfl, rfl, rfl, rfl, rfl, rfl, rfl, rfl, rfl, rfl, rfl, rfl, nofun⟩

/-- The core moves only while BUSY = 1, where the hidden registers are the same. -/
theorem ignoresHidden_coreTurn : IgnoresHidden coreTurn := by
  intro h s hfits free
  cases hb : s.busy with
  | false =>
    rw [coreTurn_idle hb, coreTurn_idle (s := withHidden h free s) hb]
    exact sameToHost_withHidden hfits free
  | true =>
    obtain rfl := hfits hb
    have hbusy : (withHidden (hiddenRegs s) free s).busy = true := hb
    by_cases hr : s.rc.val < 16
    · rw [coreTurn_round hb hr, coreTurn_round hbusy hr]
      exact sameToHost_withHidden (h := hiddenRegs (roundStep s)) (fun _ => rfl) free
    · have hlast : s.rc.val = 16 := by omega
      rw [coreTurn_commit hb hlast, coreTurn_commit hbusy hlast]
      exact commitStep_withHidden s free

/-- Settles O55: the same agent moves in both states, and its turn keeps them the same to the host. -/
theorem hiddenStateIsNotObservable : Obligations.HiddenStateIsNotObservable := by
  intro s t hst
  have hfits := hiddenFits_of_sameToHost hst
  rw [eq_withHidden_of_sameToHost hst]
  generalize hiddenRegs t = h, t.freeCount = free at *
  have hagent : nextAgent (withHidden h free s) = nextAgent s := rfl
  cases ha : nextAgent s with
  | core =>
    rw [step_of_core ha, step_of_core (hagent.trans ha)]
    exact ignoresHidden_coreTurn (s := popTurn s) hfits free
  | host =>
    rw [step_of_host ha, step_of_host (hagent.trans ha)]
    exact hostTurn_withHidden (s := popTurn s) hfits free

end Sys2Proof.Proofs
end

