-- ==== Sys2Proof/Proofs/ResetAndHazards.lean ====
section
/-! PROOF. Reset (70_reset_and_hazards.md R220), the fixed length of a command (R233), and the poll
loop under the model's fair schedule (R234): turns and core steps run out before it. -/

namespace Sys2Proof.Proofs

open Sys2Proof.Machine Sys2Proof.Laws

/-- Settles O2: the host's reset is `resetBlock`, which keeps the host's own fields. -/
theorem resetClearsTheBlock : Obligations.ResetClearsTheBlock := by
  intro s rest ha hp
  have hzero : ∀ j, wordAt zeroQuad j = 0#32 := by decide
  refine ⟨_, step_of_reset ((hostDoes_iff ha hp).mpr rfl), fun j => ⟨hzero j, hzero j, hzero j,
    hzero j⟩, rfl, rfl, rfl, rfl, rfl, statusWord_resetBlock _, ?_, rfl⟩
  rw [resetBlock_pending, setPending_pending, hp, List.tail_cons]

/-! ## The length of a command -/

/-- Every commit is the end of the command, with OUT and, for CTR_XOR, the counter written. -/
theorem commitStep_eq_finishCommand (s : State) :
    ∃ out ctr, commitStep s = finishCommand { s with out := out, ctr := ctr } := by
  unfold commitStep
  cases s.opl with
  | permFwd | permInv => exact ⟨_, s.ctr, rfl⟩
  | ctrXor => exact ⟨_, _, rfl⟩

@[simp] theorem commitStep_busy (s : State) : (commitStep s).busy = false := by
  obtain ⟨out, ctr, h⟩ := commitStep_eq_finishCommand s
  rw [h]
  rfl

@[simp] theorem commitStep_done (s : State) : (commitStep s).done = true := by
  obtain ⟨out, ctr, h⟩ := commitStep_eq_finishCommand s
  rw [h]
  rfl

/-- An instruction that makes an idle block busy has presented a command that is accepted. -/
theorem eq_accept_of_exec_busy {i : Instr} {s t : State} (hb : s.busy = false)
    (h : exec i s = .next t) (ht : t.busy = true) : ∃ c, t = acceptCommand c s := by
  rcases coreUnmoved_or_accept_of_exec h with hunmoved | ⟨-, -, haccept⟩
  · have hbusy : t.busy = s.busy := by rw [hunmoved]
    rw [hbusy, hb] at ht
    cases ht
  · exact haccept

/-- Settles O32: below 17 steps the accepted command is in its rounds, and the 17th commits it. -/
theorem seventeenCoreSteps : Obligations.SeventeenCoreSteps := by
  intro s t w hb hturns h ht
  obtain ⟨c, rfl⟩ := eq_accept_of_exec_busy hb h ht
  refine ⟨fun n hn => ⟨afterRounds (acceptCommand c s) ⟨n, hn⟩, ?_, rfl, rfl⟩,
    _, run_accepted c hturns, commitStep_busy _, commitStep_done _⟩
  have hrun := run_command_eq_coreTurns (s := acceptCommand c s) hturns rfl rfl hn.le
  rwa [coreTurns_rounds rfl rfl hn] at hrun

/-! ## Polling -/

/-- The core's steps that a running command still needs. -/
def coreStepsLeft (s : State) : Nat := if s.busy = true then 17 - s.rc.val else 0

theorem coreStepsLeft_le (s : State) : coreStepsLeft s ≤ 17 := by
  unfold coreStepsLeft
  split_ifs
  · exact Nat.sub_le 17 s.rc.val
  · exact Nat.zero_le 17

theorem coreStepsLeft_idle {s : State} (hb : s.busy = false) : coreStepsLeft s = 0 :=
  if_neg (Bool.eq_false_iff.mp hb)

theorem coreStepsLeft_busy {s : State} (hb : s.busy = true) : coreStepsLeft s = 17 - s.rc.val :=
  if_pos hb

/-- A core's turn on a busy block is one of the steps left. -/
theorem coreStepsLeft_coreTurn_lt {s : State} (hb : s.busy = true) :
    coreStepsLeft (coreTurn s) < coreStepsLeft s := by
  have hlt : s.rc.val < 17 := s.rc.isLt
  rw [coreStepsLeft_busy hb]
  by_cases hr : s.rc.val < 16
  · have hround : (roundStep s).busy = true := hb
    have hrc : (roundStep s).rc.val = s.rc.val + 1 := nextRc_val hr
    rw [coreTurn_round hb hr, coreStepsLeft_busy hround, hrc]
    omega
  · rw [coreTurn_commit hb (by omega), coreStepsLeft_idle (commitStep_busy s)]
    omega

theorem coreStepsLeft_coreTurn_le (s : State) : coreStepsLeft (coreTurn s) ≤ coreStepsLeft s := by
  cases hb : s.busy with
  | false => rw [coreTurn_idle hb]
  | true => exact (coreStepsLeft_coreTurn_lt hb).le

theorem coreTurn_pending (s : State) : (coreTurn s).pending = s.pending := by
  rcases coreTurn_cases s with ⟨-, h⟩ | ⟨-, -, h⟩ | ⟨-, -, -, h⟩ | ⟨-, -, -, h⟩ <;> rw [h] <;> rfl

/-- What bounds the steps before the poll that ends `wait`: each of them uses up a turn or is one of
the core's. -/
def stepsBeforePoll (s : State) : Nat := s.turns.length + coreStepsLeft s

/-- A core's turn that was in the list, or one on a busy block. -/
theorem stepsBeforePoll_core {s : State} (ha : nextAgent s = .core) :
    stepsBeforePoll (coreTurn (popTurn s)) < stepsBeforePoll s := by
  unfold stepsBeforePoll
  rw [coreTurn_turns, popTurn_turns]
  cases hturns : s.turns with
  | nil =>
    have hb : s.busy = true := by simpa [nextAgent, hturns] using ha
    exact Nat.add_lt_add_left (coreStepsLeft_coreTurn_lt (s := popTurn s) hb) _
  | cons a rest =>
    exact Nat.add_lt_add_of_lt_of_le (Nat.lt_succ_self _) (coreStepsLeft_coreTurn_le (popTurn s))

/-- While the block is busy the host moves only by a turn in the list. -/
theorem turns_tail_lt_of_host {s : State} (ha : nextAgent s = .host) (hb : s.busy = true) :
    s.turns.tail.length < s.turns.length := by
  cases hturns : s.turns with
  | nil => simp [nextAgent, hturns, hb] at ha
  | cons a rest => exact Nat.lt_succ_self _

/-- `wait` has ended: the host has nothing more to do, the block is idle, and the last value read
has bit 0 clear. -/
abbrev WaitEnded (s : State) : Prop :=
  s.pending = [] ∧ s.busy = false ∧ ∃ x : Word, s.reads.head? = some x ∧ x.getLsbD 0 = false

/-- Each step of the poll loop ends it or brings its end nearer. -/
theorem step_of_waiting {s : State} (hp : s.pending = [.wait]) :
    ∃ t, step s = .next t ∧
      (WaitEnded t ∨ (t.pending = [.wait] ∧ stepsBeforePoll t < stepsBeforePoll s)) := by
  cases ha : nextAgent s with
  | core =>
    exact ⟨_, step_of_core ha, .inr ⟨(coreTurn_pending _).trans hp, stepsBeforePoll_core ha⟩⟩
  | host =>
    obtain ⟨x, -, hx, hstep⟩ := waitPollsStatus s [] ha hp
    refine ⟨_, hstep, ?_⟩
    by_cases hb : s.busy = true
    · exact .inr ⟨if_pos (hx.mpr hb),
        Nat.add_lt_add_right (turns_tail_lt_of_host ha hb) (coreStepsLeft s)⟩
    · have hbit : ¬ x.getLsbD 0 = true := mt hx.mp hb
      exact .inl ⟨if_neg hbit, Bool.eq_false_iff.mpr hb, x, rfl, Bool.eq_false_iff.mpr hbit⟩

/-- The poll loop ends within the bound and one poll more. -/
theorem run_of_waiting {s : State} (hp : s.pending = [.wait]) :
    ∃ n t, n ≤ stepsBeforePoll s + 1 ∧ Host.Core.run Sys2Proof.core n s = .next t ∧ WaitEnded t := by
  induction hm : stepsBeforePoll s using Nat.strong_induction_on generalizing s with
  | h m ih =>
    subst hm
    obtain ⟨t, hstep, hended | ⟨hwaits, hlt⟩⟩ := step_of_waiting hp
    · exact ⟨1, t, Nat.succ_le_succ (Nat.zero_le _), run_of_step (M := Sys2Proof.core) hstep 0,
        hended⟩
    · obtain ⟨n, u, hn, hrun, hended⟩ := ih _ hlt hwaits rfl
      exact ⟨n + 1, u, by omega, (run_of_step (M := Sys2Proof.core) hstep n).trans hrun, hended⟩

/-- Settles O57: a command has at most 17 core steps left. -/
theorem pollingEndsUnderFairness : Obligations.PollingEndsUnderFairness := by
  intro s hp
  obtain ⟨n, t, hn, hrun, hended⟩ := run_of_waiting hp
  have hleft := coreStepsLeft_le s
  rw [stepsBeforePoll] at hn
  exact ⟨n, t, by omega, hrun, hended⟩

end Sys2Proof.Proofs
end
